-- ==== Sys2Proof/Word.lean ====
section
/-! DEFINITION. The bit-vector widths of the data model (spec/00_scope.md R11, R12). -/

namespace Sys2Proof

/-- An 8-bit field: command, address, length, check byte, operation number (R11, R91). -/
abbrev Byte := BitVec 8

/-- A 32-bit frame word, payload word or buffer word (R11). -/
abbrev Word := BitVec 32

/-- A timeout operand: a 32-bit unsigned count of microseconds (R12, R92). -/
abbrev Timeout := BitVec 32

end Sys2Proof
end

