-- ==== Sys2Proof/Config.lean ====
section
/-! DEFINITION. The configuration parameters of spec/00_scope.md R10, fixed at boot, open in the spec and no part of
State (R36), and the values that spec/93_implementation_defined.md I1 and I2 leave open. -/

namespace Sys2Proof

/-- The parameters of R10, and the contents the buffers have after each reset. The two parameters with a bounded range
are held so that every value of the field is a legal one: see `Params.nsPerBit` and `Params.rxCapacityWords`. -/
structure Params where
  /-- `NS_PER_BIT` less one. R10 asks for a value above 0 and R130 leaves `2^50` and more outside the spec, so
  the field ranges over the `2^50 - 1` legal values. -/
  nsPerBitLessOne : Fin 1125899906842623
  /-- `WRITE_TIMEOUT_EXTRA_PERCENT`. -/
  writeTimeoutExtraPercent : Nat
  /-- `RESPONSE_TIMEOUT_US`: read by callers only, never by the block (R153). -/
  responseTimeoutUs : Nat
  /-- `INTER_WORD_READ_TIMEOUT_US`. -/
  interWordReadTimeoutUs : Nat
  /-- `OPEN_LINE_CHECK_TIME_US`: read by the PHY only (R154). -/
  openLineCheckTimeUs : Nat
  /-- `RX_CAPACITY_WORDS` less one (R10 asks for at least 1). -/
  rxCapacityLessOne : Nat
  /-- What a word of `TXBUF` holds after a reset: any value (R40, I1), by the number of the reset and the word's
  index. -/
  txbufAtReset : Nat → Nat → Word
  /-- What a word of `RXBUF` holds after a reset: any value (R40, I2), by the number of the reset and the word's
  index. -/
  rxbufAtReset : Nat → Nat → Word
  deriving Inhabited

/-- `NS_PER_BIT`, the transmit time of one bit in nanoseconds (R10). -/
def Params.nsPerBit (cfg : Params) : Nat := cfg.nsPerBitLessOne.val + 1

/-- `RX_CAPACITY_WORDS`, the size of the receive buffer in words (R10). -/
def Params.rxCapacityWords (cfg : Params) : Nat := cfg.rxCapacityLessOne + 1

/-- The parameters of this implementation. The spec gives no value for any of them (R10, I1, I2), so the constant has
no body: what is proved about the machine holds for every legal configuration and for all contents of the buffers after
each reset. Log entries 2 and 5. -/
opaque Config.params : Params

/-- `PLATFORM_MAP` (R70): where a platform places the block's registers, by name. Open, and no rule reads it.
Log entry 2. -/
opaque Config.platformMap : List (String × Nat)

/-- The test configuration TC of spec/92_eei_decisions.md D29. Tests use it; the machine does not. The two
parameters D29 leaves out, which no vector uses, are 0, and so is every word of a buffer after reset. -/
def Config.tc : Params where
  nsPerBitLessOne := 499
  writeTimeoutExtraPercent := 20
  responseTimeoutUs := 0
  interWordReadTimeoutUs := 100
  openLineCheckTimeUs := 0
  rxCapacityLessOne := 255
  txbufAtReset := fun _ _ => 0
  rxbufAtReset := fun _ _ => 0

end Sys2Proof
end

