-- ==== Sys2Proof/Syntax.lean ====
section
/-! DEFINITION. The operations of the block and the values they carry: frames, packets, operands and operation
descriptors (spec/10_state.md R32, spec/30_encoding.md R91, R92, R96). -/

namespace Sys2Proof

/-- A Frame value: four 8-bit fields (R32, R80). -/
structure Frame where
  command : Byte
  recipientAddr : Byte
  senderAddr : Byte
  length : Byte
  deriving DecidableEq, Repr

/-- A Packet value: a Frame and an ordered list of payload words (R32). The bound of 255 words is checked by
`Packet.wellFormed`; the `length` field may differ from the number of words (R114). -/
structure Packet extends Frame where
  payload : List Word
  deriving DecidableEq, Repr

/-- The operations of the block, one constructor per row of spec/opcode_table.json (R96). The operands are those
the descriptor carries; `now`, `t` and `lineLow` come from the block's inputs (R93). -/
inductive Instr where
  /-- `WRITE packet, autostart, timeout` (R150). -/
  | write (packet : Packet) (autostart : Bool) (timeout : Timeout)
  /-- `START_READ timeout` (R157). -/
  | startRead (timeout : Timeout)
  /-- `PROCESS_EVENTS` (R160). -/
  | processEvents
  /-- `IS_BUSY` (R170). -/
  | isBusy
  /-- `FRAME_PACK cmd, rcp, snd, len` (R110). -/
  | framePack (cmd rcp snd len : Byte)
  /-- `FRAME_UNPACK word` (R112). -/
  | frameUnpack (word : Word)
  /-- `PKT_VALID packet` (R115). -/
  | pktValid (packet : Packet)
  /-- `CRC8 words` (R117). -/
  | crc8 (words : List Word)
  /-- `WORD_FLIP word` (R121). -/
  | wordFlip (word : Word)
  /-- `PAYLOAD_SET packet, words` (R123). -/
  | payloadSet (packet : Packet) (words : List Word)
  /-- `PAYLOAD_SET_FLIPPED packet, words` (R124). -/
  | payloadSetFlipped (packet : Packet) (words : List Word)
  /-- `PAYLOAD_APPEND packet, words` (R125). -/
  | payloadAppend (packet : Packet) (words : List Word)
  /-- `PAYLOAD_APPEND_FLIPPED packet, words` (R126). -/
  | payloadAppendFlipped (packet : Packet) (words : List Word)
  /-- `TOTAL_BITS n` (R128). -/
  | totalBits (n : Nat)
  /-- `TX_TIME_NS n` (R130). -/
  | txTimeNs (n : Nat)
  /-- `TX_DONE` (R190). -/
  | txDone
  /-- `RX_START` (R193). -/
  | rxStart
  /-- `RX_WORD w` (R196). -/
  | rxWord (w : Word)
  /-- `RX_END tc, tb` (R199). -/
  | rxEnd (tc : Nat) (tb : Word)
  deriving DecidableEq, Repr

/-- The two ports a descriptor can arrive on (R35, R91). -/
inductive Port where
  | polling
  | event
  deriving DecidableEq, Repr

/-- A typed operand value of a descriptor (R92). -/
inductive Operand where
  /-- An 8-bit unsigned field: `cmd`, `rcp`, `snd`, `len`. -/
  | u8 (v : Byte)
  /-- A 32-bit unsigned value: `word`, `w`, `tb` or a timeout. -/
  | u32 (v : Word)
  /-- An unsigned natural: `n` (0 to 255) or `tc` (0 to 31). -/
  | nat (v : Nat)
  /-- A 1-bit value: `autostart`. -/
  | bit (v : Bool)
  /-- A Packet value. -/
  | packet (p : Packet)
  /-- A list of 32-bit words. -/
  | words (ws : List Word)
  deriving DecidableEq, Repr

/-- An operation descriptor: the `OP` byte and its typed operands (R91). -/
structure Descriptor where
  op : Byte
  operands : List Operand
  deriving DecidableEq, Repr

end Sys2Proof
end

