-- ==== Sys2Proof/WellFormed.lean ====
section
/-! DEFINITION. When an operation's operands keep their types (spec/30_encoding.md R92, R97; spec/10_state.md
R32). -/

namespace Sys2Proof

/-- `0 ≤ |payload| ≤ 255` (R32). -/
def Packet.wellFormed (p : Packet) : Bool := decide (p.payload.length ≤ 255)

/-- A payload length `n` is a natural from 0 to 255 (R92). -/
def payloadCountOk (n : Nat) : Bool := decide (n ≤ 255)

/-- `tc` is 5 bits, 0 to 31 (R92). -/
def tailCountOk (tc : Nat) : Bool := decide (tc ≤ 31)

/-- Every operand is a value of its type. A descriptor for which this fails is ill-typed and is refused (R97). -/
def Instr.wellFormed : Instr → Bool
  | .write p _ _ => p.wellFormed
  | .startRead _ => true
  | .processEvents => true
  | .isBusy => true
  | .framePack _ _ _ _ => true
  | .frameUnpack _ => true
  | .pktValid p => p.wellFormed
  | .crc8 _ => true
  | .wordFlip _ => true
  | .payloadSet p _ => p.wellFormed
  | .payloadSetFlipped p _ => p.wellFormed
  | .payloadAppend p _ => p.wellFormed
  | .payloadAppendFlipped p _ => p.wellFormed
  | .totalBits n => payloadCountOk n
  | .txTimeNs n => payloadCountOk n
  | .txDone => true
  | .rxStart => true
  | .rxWord _ => true
  | .rxEnd tc _ => tailCountOk tc

/-- The operation's operands are values of their types. -/
abbrev Instr.WellFormed (i : Instr) : Prop := i.wellFormed = true

end Sys2Proof
end

