-- ==== Sys2Proof/Decode.lean ====
section
/-! DEFINITION. The operation map, the decoder of operation descriptors and the encoder (spec/30_encoding.md
R91, R92, R96, R97). -/

namespace Sys2Proof

/-- The operations by name, without operands (R96). -/
inductive OpName where
  | write | startRead | processEvents | isBusy
  | framePack | frameUnpack | pktValid | crc8 | wordFlip
  | payloadSet | payloadSetFlipped | payloadAppend | payloadAppendFlipped
  | totalBits | txTimeNs
  | txDone | rxStart | rxWord | rxEnd
  deriving DecidableEq, Repr

/-- Why a descriptor is refused (R97). -/
inductive DecodeError where
  /-- The `OP` byte is not in the map of R96. -/
  | reservedOp (op : Byte)
  /-- A polling `OP` on the event port, or an event `OP` on the polling port. -/
  | wrongPort (op : Byte)
  /-- The operands are not those R96 lists for the operation. -/
  | operandTypes (name : OpName)
  /-- An operand lies outside its type: a payload over 255 words, `n > 255` or `tc > 31`. -/
  | operandRange (name : OpName)
  deriving DecidableEq, Repr

/-- The operation map of R96, in the table's order. -/
def opMap : List (Byte × OpName) :=
  [(0x01, .write), (0x02, .startRead), (0x03, .processEvents), (0x04, .isBusy),
   (0x10, .framePack), (0x11, .frameUnpack), (0x12, .pktValid), (0x13, .crc8), (0x14, .wordFlip),
   (0x15, .payloadSet), (0x16, .payloadSetFlipped), (0x17, .payloadAppend), (0x18, .payloadAppendFlipped),
   (0x19, .totalBits), (0x1A, .txTimeNs),
   (0x80, .txDone), (0x81, .rxStart), (0x82, .rxWord), (0x83, .rxEnd)]

/-- The name an `OP` byte has in a list of map rows. -/
def lookupIn : List (Byte × OpName) → Byte → Option OpName
  | [], _ => none
  | (code, name) :: rest, op => if op = code then some name else lookupIn rest op

/-- The operation an `OP` byte selects; every other value is reserved (R96, R97). -/
def lookupOp (op : Byte) : Option OpName := lookupIn opMap op

/-- Bit 7 of the `OP` byte selects the port: 0 polling, 1 event (R91). -/
def portOf (op : Byte) : Port := if op.getLsbD 7 then .event else .polling

/-! The operand lists of R96, one reader for each shape. -/

/-- No operands. -/
def readNone (i : Instr) : List Operand → Option Instr
  | [] => some i
  | _ => none

/-- One 32-bit operand. -/
def readWord (make : Word → Instr) : List Operand → Option Instr
  | [.u32 w] => some (make w)
  | _ => none

/-- One natural operand. -/
def readNat (make : Nat → Instr) : List Operand → Option Instr
  | [.nat n] => some (make n)
  | _ => none

/-- A packet. -/
def readPacket (make : Packet → Instr) : List Operand → Option Instr
  | [.packet p] => some (make p)
  | _ => none

/-- A word list. -/
def readWords (make : List Word → Instr) : List Operand → Option Instr
  | [.words ws] => some (make ws)
  | _ => none

/-- A packet and a word list. -/
def readPacketWords (make : Packet → List Word → Instr) : List Operand → Option Instr
  | [.packet p, .words ws] => some (make p ws)
  | _ => none

/-- `packet, autostart, timeout`. -/
def readWrite : List Operand → Option Instr
  | [.packet p, .bit autostart, .u32 timeout] => some (.write p autostart timeout)
  | _ => none

/-- `cmd, rcp, snd, len`. -/
def readFrameBytes : List Operand → Option Instr
  | [.u8 cmd, .u8 rcp, .u8 snd, .u8 len] => some (.framePack cmd rcp snd len)
  | _ => none

/-- `tc, tb`. -/
def readTail : List Operand → Option Instr
  | [.nat tc, .u32 tb] => some (.rxEnd tc tb)
  | _ => none

/-- The operation that a list of typed operands makes, when they are the operands R96 lists for it. -/
def readOperands : OpName → List Operand → Option Instr
  | .write => readWrite
  | .startRead => readWord .startRead
  | .processEvents => readNone .processEvents
  | .isBusy => readNone .isBusy
  | .framePack => readFrameBytes
  | .frameUnpack => readWord .frameUnpack
  | .pktValid => readPacket .pktValid
  | .crc8 => readWords .crc8
  | .wordFlip => readWord .wordFlip
  | .payloadSet => readPacketWords .payloadSet
  | .payloadSetFlipped => readPacketWords .payloadSetFlipped
  | .payloadAppend => readPacketWords .payloadAppend
  | .payloadAppendFlipped => readPacketWords .payloadAppendFlipped
  | .totalBits => readNat .totalBits
  | .txTimeNs => readNat .txTimeNs
  | .txDone => readNone .txDone
  | .rxStart => readNone .rxStart
  | .rxWord => readWord .rxWord
  | .rxEnd => readTail

/-- The decoder: total on every descriptor and both ports, and rejecting by name (R97). -/
def decode (port : Port) (d : Descriptor) : Except DecodeError Instr :=
  match lookupOp d.op with
  | none => .error (.reservedOp d.op)
  | some name =>
    if portOf d.op = port then
      match readOperands name d.operands with
      | none => .error (.operandTypes name)
      | some i => if i.wellFormed then .ok i else .error (.operandRange name)
    else .error (.wrongPort d.op)

/-- The encoder: the descriptor of an operation, from the map of R96. -/
def encode : Instr → Descriptor
  | .write p autostart timeout => ⟨0x01, [.packet p, .bit autostart, .u32 timeout]⟩
  | .startRead timeout => ⟨0x02, [.u32 timeout]⟩
  | .processEvents => ⟨0x03, []⟩
  | .isBusy => ⟨0x04, []⟩
  | .framePack cmd rcp snd len => ⟨0x10, [.u8 cmd, .u8 rcp, .u8 snd, .u8 len]⟩
  | .frameUnpack w => ⟨0x11, [.u32 w]⟩
  | .pktValid p => ⟨0x12, [.packet p]⟩
  | .crc8 ws => ⟨0x13, [.words ws]⟩
  | .wordFlip w => ⟨0x14, [.u32 w]⟩
  | .payloadSet p ws => ⟨0x15, [.packet p, .words ws]⟩
  | .payloadSetFlipped p ws => ⟨0x16, [.packet p, .words ws]⟩
  | .payloadAppend p ws => ⟨0x17, [.packet p, .words ws]⟩
  | .payloadAppendFlipped p ws => ⟨0x18, [.packet p, .words ws]⟩
  | .totalBits n => ⟨0x19, [.nat n]⟩
  | .txTimeNs n => ⟨0x1A, [.nat n]⟩
  | .txDone => ⟨0x80, []⟩
  | .rxStart => ⟨0x81, []⟩
  | .rxWord w => ⟨0x82, [.u32 w]⟩
  | .rxEnd tc tb => ⟨0x83, [.nat tc, .u32 tb]⟩

/-- The port an operation is issued or delivered on (R96). -/
def Instr.port (i : Instr) : Port := portOf (encode i).op

/-- A packet whose header bytes are 0 and whose payload is empty. -/
def zeroPacket : Packet := ⟨⟨0, 0, 0, 0⟩, []⟩

/-- The operands an operation has when every operand is zero: what stands for the operand bits that
spec/opcode_table.json gives no place. -/
def zeroOperands : OpName → List Operand
  | .write => [.packet zeroPacket, .bit false, .u32 0]
  | .startRead => [.u32 0]
  | .processEvents => []
  | .isBusy => []
  | .framePack => [.u8 0, .u8 0, .u8 0, .u8 0]
  | .frameUnpack => [.u32 0]
  | .pktValid => [.packet zeroPacket]
  | .crc8 => [.words []]
  | .wordFlip => [.u32 0]
  | .payloadSet => [.packet zeroPacket, .words []]
  | .payloadSetFlipped => [.packet zeroPacket, .words []]
  | .payloadAppend => [.packet zeroPacket, .words []]
  | .payloadAppendFlipped => [.packet zeroPacket, .words []]
  | .totalBits => [.nat 0]
  | .txTimeNs => [.nat 0]
  | .txDone => []
  | .rxStart => []
  | .rxWord => [.u32 0]
  | .rxEnd => [.nat 0, .u32 0]

/-- The descriptor of a row of spec/opcode_table.json whose 8 bits are `w`, with every operand zero. The table
gives the `OP` byte and no operand bits, so a number above 8 bits stands for no descriptor. -/
def tableDescriptor (w : Nat) : Option Descriptor :=
  if w < 256 then
    let op : Byte := BitVec.ofNat 8 w
    match lookupOp op with
    | some name => some ⟨op, zeroOperands name⟩
    | none => some ⟨op, []⟩
  else none

/-- The operation this decoder reads from a table row's bits, delivered on the port bit 7 selects. The table's
rows are all 8 bits wide, so `nbits` decides nothing. -/
def decodeTableWord (_nbits w : Nat) : Option Instr :=
  match tableDescriptor w with
  | some d => (decode (portOf d.op) d).toOption
  | none => none

/-! The shorthand of R100. -/

/-- `SEND p`. -/
def pseudoSend (p : Packet) : Instr := .write p false 0

/-- `REQUEST p, t`. -/
def pseudoRequest (p : Packet) (t : Timeout) : Instr := .write p true t

/-- `LISTEN t`. -/
def pseudoListen (t : Timeout) : Instr := .startRead t

/-- `POLL`. -/
def pseudoPoll : Instr := .processEvents

/-- A packet literal whose `len` is left out: the length is the number of payload words (R99). -/
def packetLit (cmd rcp snd : Byte) (payload : List Word) : Packet :=
  ⟨⟨cmd, rcp, snd, BitVec.ofNat 8 payload.length⟩, payload⟩

end Sys2Proof
end

