-- ==== Sys2Proof/Machine/State.lean ====
section
/-! DEFINITION. The state of the block and the values on its ports (spec/10_state.md), the reasons the model
stops, and the state after reset (spec/10_state.md R40). -/

namespace Sys2Proof.Machine

/-- The phase of the exchange (R22). The 3-bit codes are `Phase.code`. -/
inductive Phase where
  | idle | writeInProgress | writeComplete | writeFailed
  | waitingForReadStart | readInProgress | readComplete | readFailed
  deriving DecidableEq, Repr

/-- The failure reason (R23). The 3-bit codes are `FailureReason.code`; the reserved codes 5 to 7 are values of
no state (log entry 11). -/
inductive FailureReason where
  | none | timeout | missingData | bufferOverflow | crcInvalid
  deriving DecidableEq, Repr

/-- The two buffers (R60). -/
inductive BufferName where
  | txbuf | rxbuf
  deriving DecidableEq, Repr

/-- A word-indexed storage space: the words that differ from their contents after the last reset, by index, strictly
rising. A word not listed reads as those contents, which are any value (R40, I1, I2; log entries 5 and 12). -/
abbrev Memory := List (Nat × Word)

/-- The result of `PROCESS_EVENTS` (R33). -/
structure Status where
  phase : Phase
  failureReason : FailureReason
  readBuffer : List Word
  readBufferLen : Nat
  deriving DecidableEq, Repr

/-- What the polling port returns (R95). -/
inductive Result where
  /-- `WRITE`, `START_READ`, `IS_BUSY`, `PKT_VALID`. -/
  | bit (v : Bool)
  /-- `PROCESS_EVENTS`. -/
  | status (st : Status)
  /-- `FRAME_PACK`, `WORD_FLIP`, `TOTAL_BITS`. -/
  | word (w : Word)
  /-- `FRAME_UNPACK`. -/
  | frame (f : Frame)
  /-- `CRC8`. -/
  | byte (c : Byte)
  /-- `TX_TIME_NS`. -/
  | nanoseconds (t : BitVec 64)
  /-- The payload operations. -/
  | packet (ok : Bool) (p : Packet)
  /-- `REFUSED`. -/
  | refused
  deriving DecidableEq, Repr

/-- A command the block sends the PHY (R94, R206). -/
inductive PhyCommand where
  /-- `PHY_TX_START(image)`. -/
  | txStart (image : List Word)
  /-- `PHY_RX_ARM`. -/
  | rxArm
  /-- `PHY_ABORT`. -/
  | abort
  deriving DecidableEq, Repr

/-- What the PHY is doing for the block (R203). -/
inductive PhyActivity where
  /-- Nothing: no operation is in progress, or the last one ended or was aborted. -/
  | idle
  /-- Sending an image, after `PHY_TX_START` (R203 item 1). -/
  | sending (image : List Word)
  /-- Looking for the start of a packet, after `PHY_RX_ARM` (R203 item 2). -/
  | armed
  /-- Receiving a packet, after its start (R203 item 2). -/
  | receiving
  deriving DecidableEq, Repr

/-- The PHY agent: what it is doing, and how many operations, transmits and receives, it has been told to begin. The
last of them is the one in progress. The block cannot read it (R207: events carry no tag). -/
structure Phy where
  activity : PhyActivity
  operation : Nat
  deriving DecidableEq, Repr

/-- One action of an agent of the environment (R9, R35, R250): what the schedule is made of. -/
inductive Move where
  /-- The time source lets `us` microseconds pass. -/
  | time (us : Nat)
  /-- The polling agent issues a descriptor; `lineLow` is the PHY's open-line verdict in this step (R93). -/
  | poll (lineLow : Bool) (d : Descriptor)
  /-- The PHY agent delivers a descriptor as an event of its operation number `op` (R203, R207; log entry 10). -/
  | event (op : Nat) (d : Descriptor)
  /-- The environment asserts the reset input. -/
  | resetAssert
  /-- The environment releases the reset input. -/
  | resetRelease
  deriving DecidableEq, Repr

/-- Why the model stops with a fault. The rules let no reachable state come to any of them. -/
inductive Fault where
  /-- A buffer access at or beyond the buffer's size. Raised by `memRead` and `memWrite` (R61, I11). Safe: the
  spec asks for this fault. -/
  | indexOutOfRange (b : BufferName) (index : Nat)
  /-- `PROCESS_EVENTS` finds `WRITE_FAILED` stored in PHASE (R22, I5). Safe: the spec asks for this fault. -/
  | writeFailedStored
  /-- `PROCESS_EVENTS` finds `READ_FAILED` stored with FAIL other than `BUFFER_OVERFLOW` (R38, I5). Safe: the
  spec asks for this fault. -/
  | readFailedWithoutOverflow (reason : FailureReason)
  deriving DecidableEq, Repr

/-- Why the model gives an instruction no meaning. A descriptor the spec refuses is no refusal of the model: it
returns `REFUSED` and the machine goes on (R95, R97, R220; log entry 6). -/
inductive Refusal where
  /-- Raised by an arm of `exec` for an instruction that has no meaning yet; no arm does so. Safe. -/
  | notModelled (mnemonic : String)
  deriving DecidableEq, Repr

/-- Everything the spec gives the block, its ports, and the moves still to come. -/
structure State where
  /-- `PHASE` (R22). -/
  phase : Phase
  /-- `FAIL` (R23). -/
  fail : FailureReason
  /-- `KILL_TIME`, microseconds (R24, R12). -/
  killTime : Nat
  /-- `LAST_RX_TIME`, microseconds (R25, R12). -/
  lastRxTime : Nat
  /-- `AUTOSTART` (R26). -/
  autostart : Bool
  /-- `READ_TIMEOUT` (R27). -/
  readTimeout : BitVec 32
  /-- `TXBUF` (R28). -/
  txbuf : Memory
  /-- `TXLEN` (R28). -/
  txlen : BitVec 9
  /-- `RXBUF` (R29). -/
  rxbuf : Memory
  /-- `RXCOUNT` (R29). -/
  rxcount : Nat
  /-- `RXTAIL_COUNT` (R30). -/
  rxtailCount : BitVec 5
  /-- `RXTAIL_BITS` (R30). -/
  rxtailBits : BitVec 32
  /-- `TX_ACTIVE` (R31). -/
  txActive : Bool
  /-- `RX_ARMED` (R31). -/
  rxArmed : Bool
  /-- The time input: `now` of an operation, `t` of an event (R35, R93). -/
  now : Nat
  /-- The line verdict input (R35, R93). -/
  lineLow : Bool
  /-- The level of the reset input (R35, R250). -/
  resetAsserted : Bool
  /-- The polling port's output in the last step (R35, R95); events return nothing. -/
  result : Option Result
  /-- The PHY command port's output in the last step (R35, R206). -/
  emitted : Option PhyCommand
  /-- The PHY agent (R203): the environment's state, not the block's (log entry 10). -/
  phy : Phy
  /-- The model's own field: how many times reset has been released, by which the contents of the buffers after a
  reset are drawn (R40; log entry 5). -/
  resets : Nat
  /-- The model's own field: the agents' moves still to come, in the one total order of R71 (log entry 3). -/
  schedule : List Move
  deriving DecidableEq, Repr

/-- The block when reset has just been released (R40, R250), with no move to come. The ports' values are named in
log entries 3, 4, 7 and 8, the PHY agent's in log entry 10 and the reset count's in log entry 5. -/
def State.reset : State where
  phase := .idle
  fail := .none
  killTime := 0
  lastRxTime := 0
  autostart := false
  readTimeout := 0
  txbuf := []
  txlen := 0
  rxbuf := []
  rxcount := 0
  rxtailCount := 0
  rxtailBits := 0
  txActive := false
  rxArmed := false
  now := 0
  lineLow := false
  resetAsserted := false
  result := none
  emitted := none
  phy := ⟨.idle, 0⟩
  resets := 0
  schedule := []

end Sys2Proof.Machine
end

