-- ==== Sys2Proof/Machine/Operands.lean ====
section
/-! DEFINITION. The values operations assemble from their operands: fields of words, frame words, flipped words,
payloads, bit counts and time bounds (spec/30_encoding.md R80 to R92, spec/40_codec.md, spec/41_transport.md R155,
R156). -/

namespace Sys2Proof.Machine

/-! Fields of a word. -/

/-- `w[31:24]`. -/
def byte3 (w : Word) : Byte := w.extractLsb' 24 8

/-- `w[23:16]`. -/
def byte2 (w : Word) : Byte := w.extractLsb' 16 8

/-- `w[15:8]`. -/
def byte1 (w : Word) : Byte := w.extractLsb' 8 8

/-- `w[7:0]`. -/
def byte0 (w : Word) : Byte := w.extractLsb' 0 8

/-! The frame header packer (R80, R110 to R112). -/

/-- The frame word of four fields (R110). -/
def packFrame (cmd rcp snd len : Byte) : Word :=
  (cmd.setWidth 32 <<< 24) ||| (rcp.setWidth 32 <<< 16) ||| (snd.setWidth 32 <<< 8) ||| len.setWidth 32

/-- The fields of a frame word (R112). -/
def unpackFrame (w : Word) : Frame := ⟨byte3 w, byte2 w, byte1 w, byte0 w⟩

/-- `FrameOf(p)`: the frame word the transport sends, with the length taken from the payload (R111). -/
def frameOf (p : Packet) : Word :=
  packFrame p.command p.recipientAddr p.senderAddr (BitVec.ofNat 8 p.payload.length)

/-- The payload length a received frame word declares (R87). -/
def declaredLength (frameWord : Word) : Nat := (byte0 frameWord).toNat

/-! The byte-order converter (R89, R121). -/

/-- `Flip(w)`: the four bytes of a word in reverse order. -/
def flipWord (w : Word) : Word := byte0 w ++ byte1 w ++ byte2 w ++ byte3 w

/-- Each word flipped alone, in the same order (R124). -/
def flipWords (ws : List Word) : List Word := ws.map flipWord

/-! Payloads (R123 to R126). -/

/-- A packet with a new payload and its length field set to the payload's length. -/
def withPayload (p : Packet) (ws : List Word) : Packet :=
  { p with payload := ws, length := BitVec.ofNat 8 ws.length }

/-- A payload operation's result: the new packet, or, beyond 255 words, `false` and the packet unchanged. -/
def payloadResult (p : Packet) (ws : List Word) : Result :=
  if ws.length > 255 then .packet false p else .packet true (withPayload p ws)

/-! Bit counts and time bounds. -/

/-- `TotalBits(n)` (R83, R128). -/
def totalBits (n : Nat) : Nat := (n + 1) * 32 + 8

/-- `ceil_div(a, b)` (R13). -/
def ceilDiv (a b : Nat) : Nat := (a + b - 1) / b

/-- `TX_TIME_NS n` as a natural (R130). -/
def txTimeNs (cfg : Params) (n : Nat) : Nat := totalBits n * cfg.nsPerBit

/-- The time to send `bits` bits, with the margin, in microseconds rounded up (R155, R156). -/
def boundUs (cfg : Params) (bits : Nat) : Nat :=
  ceilDiv (bits * cfg.nsPerBit * (100 + cfg.writeTimeoutExtraPercent)) 100000

/-- `WriteTimeoutUs(n)` (R155). -/
def writeTimeoutUs (cfg : Params) (n : Nat) : Nat := boundUs cfg (totalBits n)

/-- `MaxReadBits` (R156). -/
def maxReadBits (cfg : Params) : Nat := cfg.rxCapacityWords * 32 + 8

/-- `MaxReadUs` (R156). -/
def maxReadUs (cfg : Params) : Nat := boundUs cfg (maxReadBits cfg)

/-- A timeout operand as a time: zero-extended, never sign-extended or scaled (R92). -/
def timeoutUs (t : Timeout) : Nat := t.toNat

end Sys2Proof.Machine
end

