-- ==== Sys2Proof/Machine/Flags.lean ====
section
/-! DEFINITION. The check byte, the one-bit results and conditions, and the codes of phases and failure reasons
(spec/40_codec.md R115 to R120, spec/10_state.md R22, R23, R34, spec/41_transport.md R165 to R167). -/

namespace Sys2Proof.Machine

/-! The check byte (R117). -/

/-- The check byte after one more word. -/
def foldWord (c : Byte) (w : Word) : Byte := c ^^^ byte3 w ^^^ byte2 w ^^^ byte1 w ^^^ byte0 w

/-- `CRC8 words`: the XOR of all bytes of all words, from 0 (R117). -/
def checkByte (ws : List Word) : Byte := ws.foldl foldWord 0

/-- `PacketCrc(p)` (R120). -/
def packetCheckByte (p : Packet) : Byte := checkByte (frameOf p :: p.payload)

/-! One-bit results and conditions. -/

/-- The sentinel command (R116). -/
def invalidCommand : Byte := 0xFF

/-- `PKT_VALID` (R115). -/
def packetValid (p : Packet) : Bool :=
  decide (p.command ≠ invalidCommand) && decide (p.length.toNat = p.payload.length)

/-- `IS_BUSY`, and the busy test of `WRITE` and `START_READ` (R151, R170). -/
def busy (s : State) : Bool := decide (s.phase ≠ .idle)

/-- The kill-time is passed: strictly (R165). -/
def killTimePassed (s : State) : Bool := decide (s.now > s.killTime)

/-- The inter-word gap is passed: strictly (R167). -/
def wordGapPassed (cfg : Params) (s : State) : Bool :=
  decide (s.now > s.lastRxTime + cfg.interWordReadTimeoutUs)

/-! Codes (R22, R23, R90). -/

/-- The 3-bit code of a phase (R22). -/
def Phase.code : Phase → BitVec 3
  | .idle => 0
  | .writeInProgress => 1
  | .writeComplete => 2
  | .writeFailed => 3
  | .waitingForReadStart => 4
  | .readInProgress => 5
  | .readComplete => 6
  | .readFailed => 7

/-- The 3-bit code of a failure reason (R23). -/
def FailureReason.code : FailureReason → BitVec 3
  | .none => 0
  | .timeout => 1
  | .missingData => 2
  | .bufferOverflow => 3
  | .crcInvalid => 4

end Sys2Proof.Machine
end

