-- ==== Sys2Proof/Machine/Ops.lean ====
section
/-! DEFINITION. The shared operations over buffers, ports and the phase: buffer access (spec/20_memory.md R61),
PHY commands (spec/42_phy_events.md R206), the transmit image (spec/30_encoding.md R84), the receive state,
validation (spec/41_transport.md R168), and entering and leaving a failure (spec/60_exceptions.md R229, R230). -/

namespace Sys2Proof.Machine

/-! Storage. -/

/-- The word at an index; `fill` is what an unlisted word reads as. -/
def Memory.read (fill : Nat → Word) : Memory → Nat → Word
  | [], i => fill i
  | (j, w) :: rest, i => if j = i then w else Memory.read fill rest i

/-- The storage with a word listed at an index. -/
def Memory.insert : Memory → Nat → Word → Memory
  | [], i, v => [(i, v)]
  | (j, w) :: rest, i, v =>
    if i < j then (i, v) :: (j, w) :: rest
    else if i = j then (i, v) :: rest
    else (j, w) :: Memory.insert rest i v

/-- The storage with no word listed at an index. -/
def Memory.remove : Memory → Nat → Memory
  | [], _ => []
  | (j, w) :: rest, i => if j = i then rest else (j, w) :: Memory.remove rest i

/-- The storage with the word at an index set, in the same canonical form: a word that reads as it would unlisted is
not listed. -/
def Memory.write (fill : Nat → Word) (m : Memory) (i : Nat) (v : Word) : Memory :=
  if v = fill i then m.remove i else m.insert i v

/-- Every index is above `low`, and the indices rise strictly. -/
def Memory.risesFrom : Nat → Memory → Bool
  | _, [] => true
  | low, (j, _) :: rest => decide (low ≤ j) && Memory.risesFrom (j + 1) rest

/-- No listed word reads as it would unlisted. -/
def Memory.differs (fill : Nat → Word) (m : Memory) : Bool := m.all fun cell => decide (cell.2 ≠ fill cell.1)

/-- The canonical form: strictly rising indices, and no listed word that reads as it would unlisted. -/
def Memory.wf (fill : Nat → Word) (m : Memory) : Bool := Memory.risesFrom 0 m && Memory.differs fill m

/-- Every listed index is below a size. -/
def Memory.within (size : Nat) (m : Memory) : Bool := m.all fun cell => decide (cell.1 < size)

/-- The number of words of a buffer (R60). -/
def bufferSize (cfg : Params) : BufferName → Nat
  | .txbuf => 258
  | .rxbuf => cfg.rxCapacityWords

/-- A buffer's storage. -/
def State.buffer (s : State) : BufferName → Memory
  | .txbuf => s.txbuf
  | .rxbuf => s.rxbuf

/-- The state with a buffer's storage replaced. -/
def State.setBuffer (s : State) : BufferName → Memory → State
  | .txbuf, m => { s with txbuf := m }
  | .rxbuf, m => { s with rxbuf := m }

/-- What the words of a buffer held when reset was last released: a free value (R40, I1, I2). -/
def State.atReset (cfg : Params) (s : State) : BufferName → Nat → Word
  | .txbuf => cfg.txbufAtReset s.resets
  | .rxbuf => cfg.rxbufAtReset s.resets

/-- The word a buffer holds at an index. -/
def State.word (cfg : Params) (b : BufferName) (s : State) (i : Nat) : Word :=
  (s.buffer b).read (s.atReset cfg b) i

/-- A buffer's storage is in canonical form. -/
def State.canonical (cfg : Params) (b : BufferName) (s : State) : Bool :=
  (s.buffer b).wf (s.atReset cfg b)

/-- `MemRead(buf, i)` (R61). -/
def memRead (cfg : Params) (b : BufferName) (i : Nat) (s : State) : Except Fault Word :=
  if i < bufferSize cfg b then .ok (s.word cfg b i) else .error (.indexOutOfRange b i)

/-- `MemWrite(buf, i, v)` (R61). -/
def memWrite (cfg : Params) (b : BufferName) (i : Nat) (v : Word) (s : State) : Except Fault State :=
  if i < bufferSize cfg b then .ok (s.setBuffer b ((s.buffer b).write (s.atReset cfg b) i v))
  else .error (.indexOutOfRange b i)

/-- The words `buf[i .. i + n - 1]`. -/
def memReadRange (cfg : Params) (b : BufferName) (s : State) : Nat → Nat → Except Fault (List Word)
  | _, 0 => .ok []
  | i, n + 1 =>
    match memRead cfg b i s with
    | .error f => .error f
    | .ok w =>
      match memReadRange cfg b s (i + 1) n with
      | .error f => .error f
      | .ok ws => .ok (w :: ws)

/-- `MemWrite` of each word of a list, at rising indices from `i`. -/
def memWriteRange (cfg : Params) (b : BufferName) : Nat → List Word → State → Except Fault State
  | _, [], s => .ok s
  | i, v :: vs, s =>
    match memWrite cfg b i v s with
    | .error f => .error f
    | .ok s' => memWriteRange cfg b (i + 1) vs s'

/-! Ports. -/

/-- The outputs of the step before are gone. -/
def State.clearOutputs (s : State) : State := { s with result := none, emitted := none }

/-- `return v` on the polling port (R95). -/
def State.answer (r : Result) (s : State) : State := { s with result := some r }

/-- `TX_ACTIVE` after a command (R31, R206). -/
def PhyCommand.txActiveAfter : PhyCommand → Bool → Bool
  | .txStart _, _ => true
  | .rxArm, v => v
  | .abort, _ => false

/-- `RX_ARMED` after a command (R31, R206). -/
def PhyCommand.rxArmedAfter : PhyCommand → Bool → Bool
  | .txStart _, v => v
  | .rxArm, _ => true
  | .abort, _ => false

/-- `emit` a PHY command (R206). -/
def State.emit (c : PhyCommand) (s : State) : State :=
  { s with
    emitted := some c
    txActive := c.txActiveAfter s.txActive
    rxArmed := c.rxArmedAfter s.rxArmed }

/-- `PHASE <- p`: the publishing store of a step (R68). -/
def State.setPhase (p : Phase) (s : State) : State := { s with phase := p }

/-- The outcome of a step that may meet a fault. -/
def settle : Except Fault State → Host.Outcome State Fault Refusal
  | .ok s => .next s
  | .error f => .fault f

/-- A step that only returns a value (R69). -/
def returnOnly (r : Result) (s : State) : Host.Outcome State Fault Refusal :=
  .next (s.clearOutputs.answer r)

/-- An operation whose operands break their types returns `REFUSED`, writes no state and emits nothing (R97). -/
def ifTyped (ok : Bool) (run : Host.Outcome State Fault Refusal) (s : State) :
    Host.Outcome State Fault Refusal :=
  if ok then run else returnOnly .refused s

/-- An event in a phase that does not take it writes no state and emits nothing (R202). -/
def ignoreEvent (s : State) : Host.Outcome State Fault Refusal := .next s.clearOutputs

/-! The exchange. -/

/-- The transmit image of a packet (R84). -/
def txImage (p : Packet) : List Word :=
  BitVec.ofNat 32 (totalBits p.payload.length) :: frameOf p ::
    (p.payload ++ [(packetCheckByte p).setWidth 32 <<< 24])

/-- `RXCOUNT <- 0; RXTAIL_COUNT <- 0; RXTAIL_BITS <- 0`: every read starts empty (R150, R157, R190). -/
def State.clearReceive (s : State) : State := { s with rxcount := 0, rxtailCount := 0, rxtailBits := 0 }

/-- The body of a `WRITE` that is not turned away (R150). -/
def beginWrite (cfg : Params) (p : Packet) (autostart : Bool) (timeout : Timeout) (s : State) :
    Except Fault State :=
  match memWriteRange cfg .txbuf 0 (txImage p) s with
  | .error f => .error f
  | .ok s =>
    let s := { s with
      txlen := BitVec.ofNat 9 (p.payload.length + 3)
      autostart := autostart
      readTimeout := timeout }.clearReceive
    let s := { s with fail := .none, killTime := s.now + writeTimeoutUs cfg p.payload.length }
    .ok (((s.setPhase .writeInProgress).emit (.txStart (txImage p))).answer (.bit true))

/-- The body of a `START_READ` that is not turned away (R157). -/
def beginRead (timeout : Timeout) (s : State) : State :=
  let s := s.clearReceive
  let s := { s with fail := .none, killTime := s.now + timeoutUs timeout }
  ((s.setPhase .waitingForReadStart).emit .rxArm).answer (.bit true)

/-- An accepted `TX_DONE`: the shift-out is over; with `AUTOSTART` the receiver is armed and the response timeout
starts (R190, R191). -/
def finishWrite (s : State) : State :=
  let s := { s with txActive := false }
  if s.autostart then
    let s := { s.clearReceive with killTime := s.now + timeoutUs s.readTimeout }
    (s.setPhase .waitingForReadStart).emit .rxArm
  else s.setPhase .writeComplete

/-- An accepted `RX_START` (R193). -/
def startReceive (cfg : Params) (s : State) : State :=
  { s with lastRxTime := s.now, killTime := s.now + maxReadUs cfg }.setPhase .readInProgress

/-- Failure entry on the event side: the word is dropped, the reason is stored and the receive is stopped (R196,
R229). -/
def storeOverflow (s : State) : State :=
  ({ s with fail := .bufferOverflow }.setPhase .readFailed).emit .abort

/-- An accepted `RX_WORD` (R196). -/
def receiveWord (cfg : Params) (w : Word) (s : State) : Except Fault State :=
  if s.rxcount = cfg.rxCapacityWords then .ok (storeOverflow s)
  else
    match memWrite cfg .rxbuf s.rxcount w s with
    | .error f => .error f
    | .ok s => .ok { s with rxcount := s.rxcount + 1, lastRxTime := s.now }

/-- An accepted `RX_END` (R199, R206). -/
def finishReceive (tc : Nat) (tb : Word) (s : State) : State :=
  { s with rxtailCount := BitVec.ofNat 5 tc, rxtailBits := tb, rxArmed := false }.setPhase .readComplete

/-- The Status of a phase with nothing received (R33). -/
def emptyStatus (p : Phase) (r : FailureReason) : Status := ⟨p, r, [], 0⟩

/-- Failure entry on the polling side for a timeout: the PHY is stopped, the failed Status is returned at once and
`PHASE` goes to `IDLE` (R165 to R167, R229). -/
def failTimeout (reported : Phase) (s : State) : State :=
  ((s.emit .abort).setPhase .idle).answer (.status (emptyStatus reported .timeout))

/-- A phase still in progress: failed if its bound is passed, else reported and left (R162). -/
def pollInProgress (timedOut : Bool) (failed : Phase) (s : State) : State :=
  if timedOut then failTimeout failed s else s.answer (.status (emptyStatus s.phase .none))

/-- Return from an exchange: `PHASE` goes to `IDLE` and the Status is returned (R163, R168, R230). -/
def consume (st : Status) (s : State) : State := (s.setPhase .idle).answer (.status st)

/-- `Validate()`: the phase and the reason a finished receive is resolved to; the first failing check decides
(R168, R228). -/
def validate (cfg : Params) (s : State) : Except Fault (Phase × FailureReason) :=
  if s.rxcount = 0 then .ok (.readFailed, .missingData)
  else
    match memRead cfg .rxbuf 0 s with
    | .error f => .error f
    | .ok frameWord =>
      if s.rxcount < declaredLength frameWord + 1 then .ok (.readFailed, .missingData)
      else if s.rxtailCount ≠ 8 then .ok (.readFailed, .crcInvalid)
      else
        match memReadRange cfg .rxbuf s 0 s.rxcount with
        | .error f => .error f
        | .ok ws =>
          if checkByte ws ≠ byte0 s.rxtailBits then .ok (.readFailed, .crcInvalid)
          else .ok (.readComplete, .none)

/-- The `READ_COMPLETE` case of `PROCESS_EVENTS`: words are given out only when they validate (R168). -/
def resolveReceive (cfg : Params) (s : State) : Except Fault State :=
  match validate cfg s with
  | .error f => .error f
  | .ok (q, r) =>
    if q = .readComplete then
      match memReadRange cfg .rxbuf s 0 s.rxcount with
      | .error f => .error f
      | .ok ws => .ok (consume ⟨.readComplete, .none, ws, s.rxcount⟩ s)
    else .ok (consume (emptyStatus .readFailed r) s)

/-- `PROCESS_EVENTS` (R160). The two cases that stop are the unreachable ones of I5. -/
def pollExchange (cfg : Params) (s : State) : Except Fault State :=
  match s.phase with
  | .idle => .ok (s.answer (.status (emptyStatus .idle .none)))
  | .writeInProgress => .ok (pollInProgress (killTimePassed s) .writeFailed s)
  | .waitingForReadStart => .ok (pollInProgress (killTimePassed s) .readFailed s)
  | .readInProgress => .ok (pollInProgress (killTimePassed s || wordGapPassed cfg s) .readFailed s)
  | .writeComplete => .ok (consume (emptyStatus .writeComplete .none) s)
  | .readFailed =>
    if s.fail = .bufferOverflow then
      .ok (consume (emptyStatus .readFailed s.fail) { s with fail := .none })
    else .error (.readFailedWithoutOverflow s.fail)
  | .readComplete => resolveReceive cfg s
  | .writeFailed => .error .writeFailedStored

/-! The PHY agent. -/

/-- What the PHY is doing after an event it delivered: `TX_DONE` and `RX_END` end an operation, `RX_START` begins the
packet (R203 items 1 and 2). -/
def PhyActivity.afterEvent (a : PhyActivity) : Option Instr → PhyActivity
  | some .txDone => .idle
  | some .rxStart => .receiving
  | some (.rxEnd _ _) => .idle
  | _ => a

/-- The PHY after a command of the block: an operation begins, or the one in progress is aborted at once (R206,
R207). -/
def Phy.afterCommand (p : Phy) : Option PhyCommand → Phy
  | some (.txStart image) => ⟨.sending image, p.operation + 1⟩
  | some .rxArm => ⟨.armed, p.operation + 1⟩
  | some .abort => { p with activity := .idle }
  | none => p

/-- The PHY after a step of the block in which it delivered an event, or none. -/
def Phy.after (p : Phy) (event : Option Instr) (command : Option PhyCommand) : Phy :=
  Phy.afterCommand { p with activity := p.activity.afterEvent event } command

/-- The events that what the PHY is doing lets it deliver (R203 items 1 and 2). -/
def PhyActivity.delivers : PhyActivity → Instr → Bool
  | .sending _, .txDone => true
  | .armed, .rxStart => true
  | .receiving, .rxWord _ => true
  | .receiving, .rxEnd _ _ => true
  | _, _ => false

/-- The PHY may deliver an event of its operation `op`: that operation is the one in progress, not ended and not
aborted, and the event is one it may deliver now (R203, R207). -/
def Phy.mayDeliver (p : Phy) (op : Nat) (i : Instr) : Bool := decide (op = p.operation) && p.activity.delivers i

/-- The state with the PHY having seen the step: the event it delivered in it, if any, and the command it was sent. -/
def State.phyFollows (event : Option Instr) (s : State) : State :=
  { s with phy := s.phy.after event s.emitted }

/-- The outcome of a step with the PHY having seen it. -/
def followPhy (event : Option Instr) : Host.Outcome State Fault Refusal → Host.Outcome State Fault Refusal
  | .next t => .next (t.phyFollows event)
  | .fault f => .fault f
  | .refused r => .refused r

/-! Reset. -/

/-- The release of reset: every state element at its reset value, the contents of the buffers drawn anew, the PHY's
operation dropped, and the inputs and the moves to come as they are (R250, R251). -/
def releaseReset (s : State) : State :=
  { State.reset with
    now := s.now
    lineLow := s.lineLow
    phy := { s.phy with activity := .idle }
    resets := s.resets + 1
    schedule := s.schedule }

end Sys2Proof.Machine
end

