-- ==== Sys2Proof/Machine/Codec.lean ====
section
/-! DEFINITION. The meanings of the frame codec operations (spec/40_codec.md R110 to R130). They read their operands
and the configuration only, write no state and emit nothing. -/

namespace Sys2Proof.Machine

/-- `FRAME_PACK` (R110). -/
def execFramePack (cmd rcp snd len : Byte) (s : State) : Host.Outcome State Fault Refusal :=
  returnOnly (.word (packFrame cmd rcp snd len)) s

/-- `FRAME_UNPACK` (R112). -/
def execFrameUnpack (word : Word) (s : State) : Host.Outcome State Fault Refusal :=
  returnOnly (.frame (unpackFrame word)) s

/-- `PKT_VALID` (R115). -/
def execPktValid (packet : Packet) (s : State) : Host.Outcome State Fault Refusal :=
  ifTyped packet.wellFormed (returnOnly (.bit (packetValid packet)) s) s

/-- `CRC8` (R117). -/
def execCrc8 (words : List Word) (s : State) : Host.Outcome State Fault Refusal :=
  returnOnly (.byte (checkByte words)) s

/-- `WORD_FLIP` (R121). -/
def execWordFlip (word : Word) (s : State) : Host.Outcome State Fault Refusal :=
  returnOnly (.word (flipWord word)) s

/-- `PAYLOAD_SET` (R123). -/
def execPayloadSet (packet : Packet) (words : List Word) (s : State) : Host.Outcome State Fault Refusal :=
  ifTyped packet.wellFormed (returnOnly (payloadResult packet words) s) s

/-- `PAYLOAD_SET_FLIPPED` (R124). -/
def execPayloadSetFlipped (packet : Packet) (words : List Word) (s : State) :
    Host.Outcome State Fault Refusal :=
  ifTyped packet.wellFormed (returnOnly (payloadResult packet (flipWords words)) s) s

/-- `PAYLOAD_APPEND` (R125). -/
def execPayloadAppend (packet : Packet) (words : List Word) (s : State) : Host.Outcome State Fault Refusal :=
  ifTyped packet.wellFormed (returnOnly (payloadResult packet (packet.payload ++ words)) s) s

/-- `PAYLOAD_APPEND_FLIPPED` (R126). -/
def execPayloadAppendFlipped (packet : Packet) (words : List Word) (s : State) :
    Host.Outcome State Fault Refusal :=
  ifTyped packet.wellFormed (returnOnly (payloadResult packet (packet.payload ++ flipWords words)) s) s

/-- `TOTAL_BITS` (R128). -/
def execTotalBits (n : Nat) (s : State) : Host.Outcome State Fault Refusal :=
  ifTyped (payloadCountOk n) (returnOnly (.word (BitVec.ofNat 32 (totalBits n))) s) s

/-- `TX_TIME_NS` (R130). -/
def execTxTimeNs (n : Nat) (s : State) : Host.Outcome State Fault Refusal :=
  ifTyped (payloadCountOk n) (returnOnly (.nanoseconds (BitVec.ofNat 64 (txTimeNs Config.params n))) s) s

end Sys2Proof.Machine
end

