-- ==== Sys2Proof/Machine/Events.lean ====
section
/-! DEFINITION. The meanings of the PHY's events (spec/42_phy_events.md). Events return nothing (R95), and an event
in a phase that does not take it is ignored (R202). -/

namespace Sys2Proof.Machine

/-- `TX_DONE` (R190). -/
def execTxDone (s : State) : Host.Outcome State Fault Refusal :=
  if s.phase = .writeInProgress then .next (finishWrite s.clearOutputs) else ignoreEvent s

/-- `RX_START` under a configuration (R193). -/
def runRxStart (cfg : Params) (s : State) : Host.Outcome State Fault Refusal :=
  if s.phase = .waitingForReadStart then .next (startReceive cfg s.clearOutputs) else ignoreEvent s

/-- `RX_START` (R193). -/
def execRxStart (s : State) : Host.Outcome State Fault Refusal := runRxStart Config.params s

/-- `RX_WORD` under a configuration (R196). -/
def runRxWord (cfg : Params) (w : Word) (s : State) : Host.Outcome State Fault Refusal :=
  if s.phase = .readInProgress then settle (receiveWord cfg w s.clearOutputs) else ignoreEvent s

/-- `RX_WORD` (R196). -/
def execRxWord (w : Word) (s : State) : Host.Outcome State Fault Refusal := runRxWord Config.params w s

/-- `RX_END` (R199). -/
def execRxEnd (tc : Nat) (tb : Word) (s : State) : Host.Outcome State Fault Refusal :=
  ifTyped (tailCountOk tc)
    (if s.phase = .readInProgress then .next (finishReceive tc tb s.clearOutputs) else ignoreEvent s)
    s

end Sys2Proof.Machine
end

