-- ==== Sys2Proof/Machine/Sequencer.lean ====
section
/-! DEFINITION. The meanings of the phase sequencer's operations on the polling port (spec/41_transport.md). -/

namespace Sys2Proof.Machine

/-- `WRITE` under a configuration: the busy test, then the line verdict, then the write (R150, R151, R154). -/
def runWrite (cfg : Params) (packet : Packet) (autostart : Bool) (timeout : Timeout) (s : State) :
    Host.Outcome State Fault Refusal :=
  ifTyped packet.wellFormed
    (if busy s then returnOnly (.bit false) s
     else if s.lineLow then returnOnly (.bit false) s
     else settle (beginWrite cfg packet autostart timeout s.clearOutputs))
    s

/-- `WRITE` (R150). -/
def execWrite (packet : Packet) (autostart : Bool) (timeout : Timeout) (s : State) :
    Host.Outcome State Fault Refusal :=
  runWrite Config.params packet autostart timeout s

/-- `START_READ` (R157). -/
def execStartRead (timeout : Timeout) (s : State) : Host.Outcome State Fault Refusal :=
  if busy s then returnOnly (.bit false) s else .next (beginRead timeout s.clearOutputs)

/-- `PROCESS_EVENTS` under a configuration (R160). -/
def runProcessEvents (cfg : Params) (s : State) : Host.Outcome State Fault Refusal :=
  settle (pollExchange cfg s.clearOutputs)

/-- `PROCESS_EVENTS` (R160). -/
def execProcessEvents (s : State) : Host.Outcome State Fault Refusal := runProcessEvents Config.params s

/-- `IS_BUSY` (R170). -/
def execIsBusy (s : State) : Host.Outcome State Fault Refusal := returnOnly (.bit (busy s)) s

end Sys2Proof.Machine
end

