-- ==== Sys2Proof/Machine/Dispatch.lean ====
section
/-! DEFINITION. The meaning of each operation of spec/opcode_table.json, one arm per constructor. -/

namespace Sys2Proof.Machine

def exec (i : Instr) (s : State) : Host.Outcome State Fault Refusal :=
  match i with
  | .write packet autostart timeout => Sys2Proof.Machine.execWrite packet autostart timeout s
  | .startRead timeout => Sys2Proof.Machine.execStartRead timeout s
  | .processEvents => Sys2Proof.Machine.execProcessEvents s
  | .isBusy => Sys2Proof.Machine.execIsBusy s
  | .framePack cmd rcp snd len => Sys2Proof.Machine.execFramePack cmd rcp snd len s
  | .frameUnpack word => Sys2Proof.Machine.execFrameUnpack word s
  | .pktValid packet => Sys2Proof.Machine.execPktValid packet s
  | .crc8 words => Sys2Proof.Machine.execCrc8 words s
  | .wordFlip word => Sys2Proof.Machine.execWordFlip word s
  | .payloadSet packet words => Sys2Proof.Machine.execPayloadSet packet words s
  | .payloadSetFlipped packet words => Sys2Proof.Machine.execPayloadSetFlipped packet words s
  | .payloadAppend packet words => Sys2Proof.Machine.execPayloadAppend packet words s
  | .payloadAppendFlipped packet words => Sys2Proof.Machine.execPayloadAppendFlipped packet words s
  | .totalBits n => Sys2Proof.Machine.execTotalBits n s
  | .txTimeNs n => Sys2Proof.Machine.execTxTimeNs n s
  | .txDone => Sys2Proof.Machine.execTxDone s
  | .rxStart => Sys2Proof.Machine.execRxStart s
  | .rxWord w => Sys2Proof.Machine.execRxWord w s
  | .rxEnd tc tb => Sys2Proof.Machine.execRxEnd tc tb s

end Sys2Proof.Machine
end

