-- ==== Sys2Proof/Machine/Agents.lean ====
section
/-! DEFINITION. How the block takes one move of an agent: a descriptor on a port, the passing of time, the reset
input (spec/00_scope.md R9, spec/10_state.md R35, spec/70_reset_and_hazards.md R250), within the duties of the PHY agent
(spec/42_phy_events.md R203, R207). -/

namespace Sys2Proof.Machine

/-- A descriptor arrives on the polling port: the operation it decodes to runs, and a descriptor that decodes to none
returns `REFUSED` and changes nothing (R97). -/
def takePolling (d : Descriptor) (s : State) : Host.Outcome State Fault Refusal :=
  match decode .polling d with
  | .ok i => followPhy none (exec i s)
  | .error _ => returnOnly .refused s

/-- A descriptor of the PHY's operation `op` on the event port. A descriptor that decodes to no event is refused (R97).
An event whose delivery would break a duty of R203 or R207 is no move of the PHY agent (R239, I7): it does not reach the
block, and nothing changes. Any other event runs. -/
def takeEvent (op : Nat) (d : Descriptor) (s : State) : Host.Outcome State Fault Refusal :=
  match decode .event d with
  | .ok i => if s.phy.mayDeliver op i then followPhy (some i) (exec i s) else ignoreEvent s
  | .error _ => returnOnly .refused s

/-- One move of an agent. While reset is asserted the block takes no operation and no event (R250): nothing is
returned and nothing changes but the inputs. -/
def takeMove (m : Move) (s : State) : Host.Outcome State Fault Refusal :=
  match m with
  | .time us => .next { s.clearOutputs with now := s.now + us }
  | .poll lineLow d =>
    let s := { s with lineLow := lineLow }
    if s.resetAsserted then .next s.clearOutputs else takePolling d s
  | .event op d => if s.resetAsserted then .next s.clearOutputs else takeEvent op d s
  | .resetAssert => .next { s.clearOutputs with resetAsserted := true }
  | .resetRelease => if s.resetAsserted then .next (releaseReset s) else .next s.clearOutputs

/-- The next move of the schedule is taken. With no move to come no agent acts, and the block stays as it is (R9,
R21; log entry 3). -/
def takeNext (s : State) : Host.Outcome State Fault Refusal :=
  match s.schedule with
  | [] => .next s
  | m :: rest => takeMove m { s with schedule := rest }

/-- The move by which a descriptor reaches the port that bit 7 of its `OP` byte names (R91), as an event of the PHY's
operation `op` where it is one. -/
def moveOfDescriptor (lineLow : Bool) (op : Nat) (d : Descriptor) : Move :=
  match portOf d.op with
  | .polling => .poll lineLow d
  | .event => .event op d

/-- What the PHY has to be doing to deliver an operation; for one that is no event, what it does. -/
def PhyActivity.readyFor (a : PhyActivity) : Instr → PhyActivity
  | .txDone => .sending []
  | .rxStart => .armed
  | .rxWord _ => .receiving
  | .rxEnd _ _ => .receiving
  | _ => a

/-- The PHY, as it is if it may deliver the descriptor's event, and else doing what lets it. -/
def Phy.readyFor (p : Phy) (d : Descriptor) : Phy :=
  match decode .event d with
  | .ok i => if p.activity.delivers i then p else { p with activity := p.activity.readyFor i }
  | .error _ => p

/-- The state whose next step takes a table row's descriptor, operands zero: the descriptor comes first in the
schedule, with the line verdict as it stands, reset is not asserted, and the PHY may deliver it if it is an event. A
number of more than 8 bits stands for no descriptor and changes nothing (log entry 14). -/
def placeTableWord (s : State) (w : Nat) : State :=
  match tableDescriptor w with
  | some d => { s with
      resetAsserted := false
      phy := s.phy.readyFor d
      schedule := moveOfDescriptor s.lineLow s.phy.operation d :: s.schedule }
  | none => s

end Sys2Proof.Machine
end

