-- ==== Sys2Proof/Machine/Step.lean ====
section
/-! DEFINITION. One step of the machine (spec/00_scope.md R9), and where the host places an operation. -/

namespace Sys2Proof.Machine

/-- One atomic step: the first move of the schedule. -/
def step (s : State) : Host.Outcome State Fault Refusal := takeNext s

/-- `s` with a table row's descriptor as the next move (see `placeTableWord`). -/
def State.withFetchWord (s : State) (_nbits w : Nat) : State := placeTableWord s w

end Sys2Proof.Machine
end

