-- ==== Sys2Proof/Machine/Wire.lean ====
section
/-! DEFINITION. The byte/bit-order converter: words to wire bits and wire bits to events (spec/20_memory.md R62 to R66,
spec/30_encoding.md R82, R85, R86). -/

namespace Sys2Proof.Machine

/-- The low `n` bits of a number, most significant first. -/
def bitsMsbFirst : Nat → Nat → List Bool
  | 0, _ => []
  | n + 1, v => v.testBit n :: bitsMsbFirst n v

/-- A word as it goes on the wire: `w[31], w[30], …, w[0]` (R63). -/
def wordBits (w : Word) : List Bool := bitsMsbFirst 32 w.toNat

/-- A byte as it goes on the wire: `c[7], …, c[0]` (R63). -/
def byteBits (c : Byte) : List Bool := bitsMsbFirst 8 c.toNat

/-- A packet on the wire: frame word, payload words in order, check byte (R82). -/
def packetStream (p : Packet) : List Bool :=
  wordBits (frameOf p) ++ (p.payload.flatMap wordBits ++ byteBits (packetCheckByte p))

/-- `Serialize(image)`: the first `image[0]` bits of the words after the header (R85). -/
def serialize : List Word → List Bool
  | [] => []
  | header :: rest => (rest.flatMap wordBits).take header.toNat

/-- The number a bit string spells, first bit most significant (R86). -/
def assembleBits (bits : List Bool) : Nat := bits.foldl (fun acc b => 2 * acc + b.toNat) 0

/-- The first `m` whole words of a bit stream (R86). -/
def assembleWords : Nat → List Bool → List Word
  | 0, _ => []
  | m + 1, bits => BitVec.ofNat 32 (assembleBits (bits.take 32)) :: assembleWords m (bits.drop 32)

/-- What the receiver delivers for a bit stream: one `RX_WORD` per whole word, then `RX_END` with the bits left
over, right-aligned (R86). -/
def receiveEvents (bits : List Bool) : List Instr :=
  let m := bits.length / 32
  (assembleWords m bits).map Instr.rxWord ++
    [.rxEnd (bits.length % 32) (BitVec.ofNat 32 (assembleBits (bits.drop (32 * m))))]

/-- The bits on the wire for what the PHY is doing (R203 item 1). -/
def PhyActivity.wire : PhyActivity → List Bool
  | .idle => []
  | .sending image => serialize image
  | .armed => []
  | .receiving => []

/-- The bits the PHY sends for a command (R203 item 1). -/
def PhyCommand.wire : PhyCommand → List Bool
  | .txStart image => serialize image
  | .rxArm => []
  | .abort => []

end Sys2Proof.Machine
end

