-- ==== Sys2Proof/Safety.lean ====
section
/-! DEFINITION. What counts as a good state and a legal event: the invariants of spec/10_state.md R38 and R31, the PHY's
duty of spec/42_phy_events.md R203 item 5, the failure codes and the phase transitions of spec/41_transport.md
R171. -/

namespace Sys2Proof.Machine

/-- TXBUF holds an image of `TXLEN` words: the header is the bit count and the frame word declares the payload length
(R38 item 4, R84). -/
structure TxHeld (cfg : Params) (s : State) : Prop where
  atLeast : 3 ≤ s.txlen.toNat
  atMost : s.txlen.toNat ≤ 258
  header : s.word cfg .txbuf 0 = BitVec.ofNat 32 (32 * (s.txlen.toNat - 2) + 8)
  frame : s.txlen.toNat = ((s.word cfg .txbuf 1).extractLsb' 0 8).toNat + 3

/-- The invariants of the block under a configuration. The items of R38 come first, in their order; then what R31
says of the PHY bits, and that both buffers are in canonical form and lie inside their size. -/
structure Inv (cfg : Params) (s : State) : Prop where
  /-- R38 item 1. -/
  phaseStored : s.phase ≠ .writeFailed
  /-- R38 item 2. -/
  failStored : s.fail = if s.phase = .readFailed then .bufferOverflow else .none
  /-- R38 item 3. -/
  rxcountFits : s.rxcount ≤ cfg.rxCapacityWords
  /-- R38 item 4. -/
  imageHeld : s.txlen = 0 ∨ TxHeld cfg s
  /-- R38 item 5. -/
  lastRxPast : s.phase = .readInProgress → s.lastRxTime ≤ s.now
  /-- R38 item 6. -/
  tailFits : s.rxtailCount.toNat ≤ 31
  /-- R31. -/
  txActiveStored : s.txActive = decide (s.phase = .writeInProgress)
  /-- R31. -/
  rxArmedStored : s.rxArmed = decide (s.phase = .waitingForReadStart ∨ s.phase = .readInProgress)
  txbufWf : s.canonical cfg .txbuf = true
  rxbufWf : s.canonical cfg .rxbuf = true
  /-- R28. -/
  txbufInside : s.txbuf.within 258 = true
  /-- R29. -/
  rxbufInside : s.rxbuf.within cfg.rxCapacityWords = true

/-- What the PHY is doing and the phase fit together: it sends in `WRITE_IN_PROGRESS`, looks for a packet in
`WAITING_FOR_READ_START`, receives in `READ_IN_PROGRESS`, and does nothing in every other phase (R31, R203, R207). -/
def PhyActivity.fits : PhyActivity → Phase → Prop
  | .idle, q => q ≠ .writeInProgress ∧ q ≠ .waitingForReadStart ∧ q ≠ .readInProgress
  | .sending _, q => q = .writeInProgress
  | .armed, q => q = .waitingForReadStart
  | .receiving, q => q = .readInProgress

/-- The PHY's operation `op` can deliver no more events: a later one has begun, or it has ended or been aborted (R203,
R207). -/
def Phy.finished (p : Phy) (op : Nat) : Prop := op < p.operation ∨ op = p.operation ∧ p.activity = .idle

/-- The phase that takes an event; operations of the polling port have none (R202). -/
def takingPhase : Instr → Option Phase
  | .txDone => some .writeInProgress
  | .rxStart => some .waitingForReadStart
  | .rxWord _ => some .readInProgress
  | .rxEnd _ _ => some .readInProgress
  | _ => none

/-- A PHY that keeps duty 5 of R203 delivers an event only in the phase that takes it. -/
def EventLegal (i : Instr) (s : State) : Prop := i.port = .event → takingPhase i = some s.phase

/-- The rows of R171 that change the stored phase, with the condition of each. -/
inductive PhaseStep (cfg : Params) (s : State) : Instr → Phase → Prop where
  | write (p : Packet) (a : Bool) (t : Timeout) :
      s.phase = .idle → s.lineLow = false → PhaseStep cfg s (.write p a t) .writeInProgress
  | startRead (t : Timeout) : s.phase = .idle → PhaseStep cfg s (.startRead t) .waitingForReadStart
  | txDone : s.phase = .writeInProgress → s.autostart = false → PhaseStep cfg s .txDone .writeComplete
  | txDoneRead :
      s.phase = .writeInProgress → s.autostart = true → PhaseStep cfg s .txDone .waitingForReadStart
  | writeTimeout : s.phase = .writeInProgress → s.killTime < s.now → PhaseStep cfg s .processEvents .idle
  | rxStart : s.phase = .waitingForReadStart → PhaseStep cfg s .rxStart .readInProgress
  | responseTimeout :
      s.phase = .waitingForReadStart → s.killTime < s.now → PhaseStep cfg s .processEvents .idle
  | overflow (w : Word) :
      s.phase = .readInProgress → s.rxcount = cfg.rxCapacityWords → PhaseStep cfg s (.rxWord w) .readFailed
  | rxEnd (tc : Nat) (tb : Word) :
      s.phase = .readInProgress → tc ≤ 31 → PhaseStep cfg s (.rxEnd tc tb) .readComplete
  | readTimeout :
      s.phase = .readInProgress →
        s.killTime < s.now ∨ s.lastRxTime + cfg.interWordReadTimeoutUs < s.now →
        PhaseStep cfg s .processEvents .idle
  | writeConsumed : s.phase = .writeComplete → PhaseStep cfg s .processEvents .idle
  | overflowConsumed : s.phase = .readFailed → PhaseStep cfg s .processEvents .idle
  | readConsumed : s.phase = .readComplete → PhaseStep cfg s .processEvents .idle

/-- The operations and events of a list, one after the other with no time passing between them. -/
def runOps : List Instr → State → Host.Outcome State Fault Refusal
  | [], s => .next s
  | i :: rest, s =>
    match exec i s with
    | .next t => runOps rest t
    | .fault f => .fault f
    | .refused r => .refused r

end Sys2Proof.Machine
end

