-- ==== Sys2Proof/Certificates/Slice0/Obligations.lean ====
section
/-! DEFINITION. The statements for the provers. Each docstring names the rule of spec/ it states or rests on. An
equation `exec i s = .next { s with … }` says the instruction's result and its frame at once: every field of State
that is not named in it, both buffers among them, is unchanged. -/

open Sys2Proof Sys2Proof.Machine

/-! ## Encoding -/

/-- Decoding the descriptor of a well-formed operation, on the operation's port, gives that operation back, with
every operand at every value (R91, R96). -/
def Obligations.DecodeOfEncode : Prop :=
  ∀ i : Instr, i.WellFormed → decode i.port (encode i) = .ok i

/-- A descriptor that decodes is the descriptor of the operation it decodes to, the operation is well-formed, and the
port is the operation's own: no descriptor has two meanings, and no meaning has two descriptors (R91, R97). -/
def Obligations.DecodedDescriptorIsEncoding : Prop :=
  ∀ (port : Port) (d : Descriptor) (i : Instr), decode port d = .ok i →
    i.WellFormed ∧ i.port = port ∧ encode i = d

/-- R96: the `OP` number, the port and the operand list of each of the 19 operations. -/
def Obligations.OperationMapAsListed : Prop :=
  ∀ (p : Packet) (a : Bool) (t w : Word) (c r s l : Byte) (ws : List Word) (n tc : Nat),
    p.payload.length ≤ 255 → n ≤ 255 → tc ≤ 31 →
    decode .polling ⟨0x01, [.packet p, .bit a, .u32 t]⟩ = .ok (.write p a t) ∧
    decode .polling ⟨0x02, [.u32 t]⟩ = .ok (.startRead t) ∧
    decode .polling ⟨0x03, []⟩ = .ok .processEvents ∧
    decode .polling ⟨0x04, []⟩ = .ok .isBusy ∧
    decode .polling ⟨0x10, [.u8 c, .u8 r, .u8 s, .u8 l]⟩ = .ok (.framePack c r s l) ∧
    decode .polling ⟨0x11, [.u32 w]⟩ = .ok (.frameUnpack w) ∧
    decode .polling ⟨0x12, [.packet p]⟩ = .ok (.pktValid p) ∧
    decode .polling ⟨0x13, [.words ws]⟩ = .ok (.crc8 ws) ∧
    decode .polling ⟨0x14, [.u32 w]⟩ = .ok (.wordFlip w) ∧
    decode .polling ⟨0x15, [.packet p, .words ws]⟩ = .ok (.payloadSet p ws) ∧
    decode .polling ⟨0x16, [.packet p, .words ws]⟩ = .ok (.payloadSetFlipped p ws) ∧
    decode .polling ⟨0x17, [.packet p, .words ws]⟩ = .ok (.payloadAppend p ws) ∧
    decode .polling ⟨0x18, [.packet p, .words ws]⟩ = .ok (.payloadAppendFlipped p ws) ∧
    decode .polling ⟨0x19, [.nat n]⟩ = .ok (.totalBits n) ∧
    decode .polling ⟨0x1A, [.nat n]⟩ = .ok (.txTimeNs n) ∧
    decode .event ⟨0x80, []⟩ = .ok .txDone ∧
    decode .event ⟨0x81, []⟩ = .ok .rxStart ∧
    decode .event ⟨0x82, [.u32 w]⟩ = .ok (.rxWord w) ∧
    decode .event ⟨0x83, [.nat tc, .u32 t]⟩ = .ok (.rxEnd tc t)

/-- Four `OP` bytes of the operation map (R96) written out bit by bit: a sequencer operation, two codec operations and
an event. That the table function gives each the operands that are zero is the model's choice, log entry 14. -/
def Obligations.SampleWordsDecode : Prop :=
  decodeTableWord 8 0b00000011 = some .processEvents ∧
  decodeTableWord 8 0b00010100 = some (.wordFlip 0) ∧
  decodeTableWord 8 0b00011001 = some (.totalBits 0) ∧
  decodeTableWord 8 0b10000010 = some (.rxWord 0)

/-- R97: a reserved `OP`, an `OP` on the wrong port, and a descriptor that is no operation's with operands of their
types each return `REFUSED`, write no state and emit no command, whatever PHY operation an event descriptor is said to be
of; and so does an operation whose operands break their types, at its own meaning (the moves that carry descriptors are
log entry 3, the event port's answer log entry 6). -/
def Obligations.ReservedAndIllTypedRefused : Prop :=
  (∀ (s : State) (d : Descriptor) (rest : List Move), s.resetAsserted = false →
    let n := d.op.toNat
    let reserved := n = 0 ∨ (0x05 ≤ n ∧ n ≤ 0x0F) ∨ (0x1B ≤ n ∧ n ≤ 0x7F) ∨ (0x84 ≤ n ∧ n ≤ 0xFF)
    let illTyped := ∀ i : Instr, i.WellFormed → encode i ≠ d
    (∀ low : Bool, s.schedule = .poll low d :: rest → reserved ∨ 0x80 ≤ n ∨ illTyped →
      step s = .next { s with
        schedule := rest, lineLow := low, result := some .refused, emitted := none }) ∧
    (∀ op : Nat, s.schedule = .event op d :: rest → reserved ∨ n < 0x80 ∨ illTyped →
      step s = .next { s with schedule := rest, result := some .refused, emitted := none })) ∧
  (∀ (i : Instr) (s : State), ¬ i.WellFormed →
    exec i s = .next { s with result := some .refused, emitted := none })

/-- R22, R23: the codes of the phases and of the failure reasons. -/
def Obligations.PhaseAndReasonCodes : Prop :=
  [Phase.idle, .writeInProgress, .writeComplete, .writeFailed, .waitingForReadStart, .readInProgress,
    .readComplete, .readFailed].map Phase.code = [0, 1, 2, 3, 4, 5, 6, 7] ∧
  [FailureReason.none, .timeout, .missingData, .bufferOverflow, .crcInvalid].map FailureReason.code =
    [0, 1, 2, 3, 4]

/-! ## The step -/

/-- A step runs the decoded operation: when the first move of the schedule carries a descriptor that decodes and reset
is not asserted, the step is that operation's meaning in the state whose schedule has moved on and, on the polling
port, whose line verdict is the move's, and then the PHY sees the command it was sent and the event it delivered (R9,
R93, R206). An event that the duties of R203 and R207 do not let the PHY deliver is no move of it: nothing runs (R239;
the schedule is log entry 3, the PHY agent log entry 10). -/
def Obligations.StepRunsDecodedOperation : Prop :=
  ∀ (s : State) (d : Descriptor) (rest : List Move) (i : Instr), s.resetAsserted = false →
    (∀ low : Bool, s.schedule = .poll low d :: rest → decode .polling d = .ok i →
      step s = followPhy none (exec i { s with schedule := rest, lineLow := low })) ∧
    (∀ op : Nat, s.schedule = .event op d :: rest → decode .event d = .ok i → s.phy.mayDeliver op i = true →
      step s = followPhy (some i) (exec i { s with schedule := rest })) ∧
    (∀ op : Nat, s.schedule = .event op d :: rest → decode .event d = .ok i → s.phy.mayDeliver op i = false →
      step s = .next { s with schedule := rest, result := none, emitted := none })

/-- The moves that carry no descriptor, and the empty schedule: time passes by the amount given, reset is asserted with
no state element changed, a release of reset that is not asserted changes nothing but the outputs, and with no move to
come the block stays as it is. The schedule is the model's choice, log entry 3, and the time source's step log entry 4;
that asserting reset leaves the state elements at their old values, and that a release of reset not asserted does
nothing, is log entry 9. -/
def Obligations.StepOfOtherMoves : Prop :=
  ∀ (s : State) (rest : List Move),
    (∀ us : Nat, s.schedule = .time us :: rest →
      step s = .next { s with schedule := rest, now := s.now + us, result := none, emitted := none }) ∧
    (s.schedule = .resetAssert :: rest →
      step s = .next { s with schedule := rest, resetAsserted := true, result := none, emitted := none }) ∧
    (s.schedule = .resetRelease :: rest → s.resetAsserted = false →
      step s = .next { s with schedule := rest, result := none, emitted := none }) ∧
    (s.schedule = [] → step s = .next s)

/-- Reset: while it is asserted neither port's move does anything but leave the schedule (and set the line verdict
input), and its release puts every state element R40 gives a value at that value, draws the contents of both buffers
anew as any value, drops the PHY's operation, and keeps the time input, the line verdict and the moves to come (R250;
the ports' part is log entry 9, the buffers' log entry 5, the PHY's log entry 10). -/
def Obligations.ResetTakesNothingThenClears : Prop :=
  ∀ (s : State) (rest : List Move), s.resetAsserted = true →
    (∀ (low : Bool) (d : Descriptor), s.schedule = .poll low d :: rest →
      step s = .next { s with schedule := rest, lineLow := low, result := none, emitted := none }) ∧
    (∀ (op : Nat) (d : Descriptor), s.schedule = .event op d :: rest →
      step s = .next { s with schedule := rest, result := none, emitted := none }) ∧
    (s.schedule = .resetRelease :: rest →
      ∃ t : State, step s = .next t ∧
        t = { State.reset with
          now := s.now, lineLow := s.lineLow, phy := ⟨.idle, s.phy.operation⟩, resets := s.resets + 1
          schedule := rest } ∧
        ∀ i : Nat, t.word Config.params .txbuf i = Config.params.txbufAtReset t.resets i ∧
          t.word Config.params .rxbuf i = Config.params.rxbufAtReset t.resets i)

/-- R40: the state elements after reset that the spec gives a value. -/
def Obligations.ResetValues : Prop :=
  State.reset.phase = .idle ∧ State.reset.fail = .none ∧ State.reset.killTime = 0 ∧
  State.reset.lastRxTime = 0 ∧ State.reset.autostart = false ∧ State.reset.readTimeout = 0 ∧
  State.reset.txlen = 0 ∧ State.reset.rxcount = 0 ∧ State.reset.rxtailCount = 0 ∧
  State.reset.rxtailBits = 0 ∧ State.reset.txActive = false ∧ State.reset.rxArmed = false

/-- The time every step reads never goes back, over any number of steps (R201). -/
def Obligations.TimeNeverGoesBack : Prop :=
  ∀ (k : Nat) (s t : State), Host.Core.run Sys2Proof.core k s = .next t → s.now ≤ t.now

/-- The duties of the PHY agent that bound its events (R203 items 1 to 3, R207): once an operation of the PHY is
finished, because a later one has begun, it has ended or it was aborted, no event of it reaches the block, after any
number of steps; a step that sends `PHY_ABORT` finishes the operation in progress; and so does the release of reset
(R250). Operation numbers are the model's, log entry 10. -/
def Obligations.FinishedPhyOperationDeliversNothing : Prop :=
  (∀ (k op : Nat) (s t : State) (d : Descriptor) (i : Instr) (rest : List Move),
    s.phy.finished op → Host.Core.run Sys2Proof.core k s = .next t →
    t.schedule = .event op d :: rest → decode .event d = .ok i →
    step t = .next { t with schedule := rest, result := none, emitted := none }) ∧
  (∀ s t : State, s.schedule ≠ [] → step s = .next t → t.emitted = some .abort →
    t.phy.finished t.phy.operation) ∧
  (∀ (s t : State) (rest : List Move), s.resetAsserted = true → s.schedule = .resetRelease :: rest →
    step s = .next t → t.phy.finished s.phy.operation)

/-! ## Frame codec -/

/-- R110 with the layout of R80: `FRAME_PACK` returns command, recipient, sender and length from the top byte down, for
every value of each, and changes nothing but the outputs. -/
def Obligations.FramePackResult : Prop :=
  ∀ (cmd rcp snd len : Byte) (s : State), ∃ w : Word,
    exec (.framePack cmd rcp snd len) s = .next { s with result := some (.word w), emitted := none } ∧
    w.toNat = cmd.toNat * 2 ^ 24 + rcp.toNat * 2 ^ 16 + snd.toNat * 2 ^ 8 + len.toNat

/-- R112: `FRAME_UNPACK` returns the four bytes of the word, from the top byte down. -/
def Obligations.FrameUnpackResult : Prop :=
  ∀ (w : Word) (s : State), ∃ f : Frame,
    exec (.frameUnpack w) s = .next { s with result := some (.frame f), emitted := none } ∧
    f.command.toNat = w.toNat / 2 ^ 24 ∧
    f.recipientAddr.toNat = w.toNat / 2 ^ 16 % 2 ^ 8 ∧
    f.senderAddr.toNat = w.toNat / 2 ^ 8 % 2 ^ 8 ∧
    f.length.toNat = w.toNat % 2 ^ 8

/-- R113: packing then unpacking gives every frame back, and unpacking then packing gives every word back. -/
def Obligations.FrameRoundTrip : Prop :=
  (∀ (f : Frame) (s : State), ∃ w : Word,
    exec (.framePack f.command f.recipientAddr f.senderAddr f.length) s = .next { s with
      result := some (.word w), emitted := none } ∧
    exec (.frameUnpack w) s = .next { s with result := some (.frame f), emitted := none }) ∧
  (∀ (w : Word) (s : State), ∃ f : Frame,
    exec (.frameUnpack w) s = .next { s with result := some (.frame f), emitted := none } ∧
    exec (.framePack f.command f.recipientAddr f.senderAddr f.length) s = .next { s with
      result := some (.word w), emitted := none })

/-- R115 with the sentinel of R116: `PKT_VALID` for every Packet. -/
def Obligations.PacketValidResult : Prop :=
  ∀ (p : Packet) (s : State), p.payload.length ≤ 255 →
    exec (.pktValid p) s = .next { s with
      result := some (.bit (decide (p.command ≠ 0xFF ∧ p.length.toNat = p.payload.length)))
      emitted := none }

/-- R117: `CRC8` returns the XOR, from 0, of all bytes of all words in order, for a list of any length. -/
def Obligations.CheckByteResult : Prop :=
  ∀ (ws : List Word) (s : State),
    exec (.crc8 ws) s = .next { s with
      result := some (.byte ((ws.flatMap fun w =>
        [w.extractLsb' 24 8, w.extractLsb' 16 8, w.extractLsb' 8 8, w.extractLsb' 0 8]).foldl
          (fun c b => c ^^^ b) 0))
      emitted := none }

/-- R118, its six items in order: the check byte of a concatenation, of a reordering, of flipped words and of an XOR of
words; one inverted bit inverts exactly one bit of it; two inverted bits at one bit position of two bytes, of one word
or of two, cancel. -/
def Obligations.CheckByteLaws : Prop :=
  (∀ A B : List Word, checkByte (A ++ B) = checkByte A ^^^ checkByte B) ∧
  (∀ A B : List Word, A.Perm B → checkByte A = checkByte B) ∧
  (∀ w : Word, checkByte [flipWord w] = checkByte [w]) ∧
  (∀ w v : Word, checkByte [w ^^^ v] = checkByte [w] ^^^ checkByte [v]) ∧
  (∀ (A B : List Word) (w : Word) (i : Nat), i < 32 →
    checkByte (A ++ (w ^^^ (1 <<< i)) :: B) = checkByte (A ++ w :: B) ^^^ (1 <<< (i % 8))) ∧
  (∀ (A B : List Word) (w : Word) (i j : Nat), i < 32 → j < 32 → i / 8 ≠ j / 8 → i % 8 = j % 8 →
    checkByte (A ++ (w ^^^ (1 <<< i) ^^^ (1 <<< j)) :: B) = checkByte (A ++ w :: B)) ∧
  (∀ (A B C : List Word) (w v : Word) (i j : Nat), i < 32 → j < 32 → i % 8 = j % 8 →
    checkByte (A ++ (w ^^^ (1 <<< i)) :: (B ++ (v ^^^ (1 <<< j)) :: C)) =
      checkByte (A ++ w :: (B ++ v :: C)))

/-- R119: folding the XOR of all words gives the check byte. -/
def Obligations.WordFoldGivesCheckByte : Prop :=
  ∀ ws : List Word,
    let x := ws.foldl (fun a w => a ^^^ w) (0 : Word)
    x.extractLsb' 24 8 ^^^ x.extractLsb' 16 8 ^^^ x.extractLsb' 8 8 ^^^ x.extractLsb' 0 8 = checkByte ws

/-- R121 with the definition of R89: `WORD_FLIP` returns the word with its four bytes reversed, bit by bit. -/
def Obligations.WordFlipResult : Prop :=
  ∀ (w : Word) (s : State), ∃ v : Word,
    exec (.wordFlip w) s = .next { s with result := some (.word v), emitted := none } ∧
    ∀ k j : Nat, k < 4 → j < 8 → v.getLsbD (8 * k + j) = w.getLsbD (8 * (3 - k) + j)

/-- R122: `WORD_FLIP` is an involution, keeps the check byte, and commutes with XOR. -/
def Obligations.WordFlipLaws : Prop :=
  (∀ w : Word, flipWord (flipWord w) = w) ∧
  (∀ ws : List Word, checkByte (ws.map flipWord) = checkByte ws) ∧
  (∀ a b : Word, flipWord (a ^^^ b) = flipWord a ^^^ flipWord b)

/-- R123: `PAYLOAD_SET` for every Packet and every word list. -/
def Obligations.PayloadSetResult : Prop :=
  ∀ (p : Packet) (ws : List Word) (s : State), p.payload.length ≤ 255 →
    exec (.payloadSet p ws) s = .next { s with
      result := some (if ws.length ≤ 255
        then .packet true { p with payload := ws, length := BitVec.ofNat 8 ws.length }
        else .packet false p)
      emitted := none }

/-- R124: `PAYLOAD_SET_FLIPPED` for every Packet and every word list. -/
def Obligations.PayloadSetFlippedResult : Prop :=
  ∀ (p : Packet) (ws : List Word) (s : State), p.payload.length ≤ 255 →
    exec (.payloadSetFlipped p ws) s = .next { s with
      result := some (if ws.length ≤ 255
        then .packet true { p with payload := ws.map flipWord, length := BitVec.ofNat 8 ws.length }
        else .packet false p)
      emitted := none }

/-- R125: `PAYLOAD_APPEND` for every Packet and every word list. -/
def Obligations.PayloadAppendResult : Prop :=
  ∀ (p : Packet) (ws : List Word) (s : State), p.payload.length ≤ 255 →
    exec (.payloadAppend p ws) s = .next { s with
      result := some (if p.payload.length + ws.length ≤ 255
        then .packet true { p with
          payload := p.payload ++ ws, length := BitVec.ofNat 8 (p.payload.length + ws.length) }
        else .packet false p)
      emitted := none }

/-- R126: `PAYLOAD_APPEND_FLIPPED` for every Packet and every word list. -/
def Obligations.PayloadAppendFlippedResult : Prop :=
  ∀ (p : Packet) (ws : List Word) (s : State), p.payload.length ≤ 255 →
    exec (.payloadAppendFlipped p ws) s = .next { s with
      result := some (if p.payload.length + ws.length ≤ 255
        then .packet true { p with
          payload := p.payload ++ ws.map flipWord
          length := BitVec.ofNat 8 (p.payload.length + ws.length) }
        else .packet false p)
      emitted := none }

/-- R127: the four payload operations keep command, recipient and sender, and after a successful one the result is a
Packet that is valid exactly when its command is not the sentinel. -/
def Obligations.PayloadOperationsKeepHeader : Prop :=
  ∀ (p : Packet) (ws : List Word) (s : State), p.payload.length ≤ 255 →
    ∀ i ∈ [Instr.payloadSet p ws, .payloadSetFlipped p ws, .payloadAppend p ws, .payloadAppendFlipped p ws],
      ∃ (ok : Bool) (q : Packet) (t : State), exec i s = .next t ∧ t.result = some (.packet ok q) ∧
        q.command = p.command ∧ q.recipientAddr = p.recipientAddr ∧ q.senderAddr = p.senderAddr ∧
        (ok = true → q.payload.length ≤ 255 ∧
          exec (.pktValid q) s = .next { s with
            result := some (.bit (decide (q.command ≠ 0xFF))), emitted := none })

/-- R128: `TOTAL_BITS n` is `(n + 1) * 32 + 8` for `n` up to 255 and is refused above. -/
def Obligations.TotalBitsResult : Prop :=
  ∀ (n : Nat) (s : State),
    (n ≤ 255 → ∃ w : Word,
      exec (.totalBits n) s = .next { s with result := some (.word w), emitted := none } ∧
      w.toNat = (n + 1) * 32 + 8) ∧
    (255 < n → exec (.totalBits n) s = .next { s with result := some .refused, emitted := none })

/-- R130: `TX_TIME_NS n` is the exact product of the bit count and `NS_PER_BIT`, which fits in 64 bits, for `n` up to
255, and is refused above. -/
def Obligations.TxTimeResult : Prop :=
  ∀ (n : Nat) (s : State),
    (n ≤ 255 → ∃ ns : BitVec 64,
      exec (.txTimeNs n) s = .next { s with result := some (.nanoseconds ns), emitted := none } ∧
      ns.toNat = ((n + 1) * 32 + 8) * Config.params.nsPerBit) ∧
    (255 < n → exec (.txTimeNs n) s = .next { s with result := some .refused, emitted := none })

/-- The side effects of R69: a codec operation and `IS_BUSY` change nothing but the outputs and emit nothing, and so do
a `WRITE` and a `START_READ` that do not return `true`. -/
def Obligations.OnlyWhatSucceedsChangesState : Prop :=
  ∀ (i : Instr) (s : State),
    ((match i with
      | .framePack _ _ _ _ | .frameUnpack _ | .pktValid _ | .crc8 _ | .wordFlip _ | .payloadSet _ _
      | .payloadSetFlipped _ _ | .payloadAppend _ _ | .payloadAppendFlipped _ _ | .totalBits _
      | .txTimeNs _ | .isBusy => True
      | _ => False) →
      ∃ r : Result, exec i s = .next { s with result := some r, emitted := none }) ∧
    ((match i with
      | .write _ _ _ | .startRead _ => True
      | _ => False) →
      ∀ t : State, exec i s = .next t → t.result ≠ some (.bit true) →
        t = { s with result := t.result, emitted := none })

/-! ## The wire -/

/-- R85: what the PHY sends for the image of a Packet is the frame word, the payload words and the eight bits of the
check byte, each most significant bit first, and nothing of the last word's low 24 bits. -/
def Obligations.SerializedImageIsPacketStream : Prop :=
  ∀ p : Packet, p.payload.length ≤ 255 →
    serialize (txImage p) =
      ((frameOf p :: p.payload).flatMap fun w => (List.range 32).map fun k => w.getLsbD (31 - k)) ++
        (List.range 8).map fun k => (packetCheckByte p).getLsbD (7 - k)

/-- R86: how the receiver turns a bit stream of any length into events: whole words with the first bit as bit 31, then
the bits left over, right-aligned and zero-extended. -/
def Obligations.ReceiverAssemblesStream : Prop :=
  ∀ bits : List Bool, ∃ (ws : List Word) (tb : Word),
    receiveEvents bits = ws.map Instr.rxWord ++ [.rxEnd (bits.length % 32) tb] ∧
    ws.length = bits.length / 32 ∧
    (∀ k j : Nat, k < bits.length / 32 → j < 32 →
      (ws.getD k 0).getLsbD (31 - j) = bits.getD (32 * k + j) false) ∧
    (∀ j : Nat, j < 32 →
      tb.getLsbD j = if j < bits.length % 32 then bits.getD (bits.length - 1 - j) false else false)

/-- The receiver undoes the serialiser: from the bits of a Packet's image it delivers the frame word and the payload
words, a tail of 8 bits and the check byte (R85, R86). -/
def Obligations.ReceiverUndoesSerializer : Prop :=
  ∀ p : Packet, p.payload.length ≤ 255 →
    receiveEvents (serialize (txImage p)) =
      (frameOf p :: p.payload).map Instr.rxWord ++ [.rxEnd 8 ((packetCheckByte p).setWidth 32)]

/-- A Packet sent by one block and received by another arrives whole: from any good state waiting for a read, with room
for the words, the start of the packet, the events its wire bits give and one poll, with no time and no other poll between
them, report `READ_COMPLETE` with the frame word and every payload word (R82 to R86, R168, R193 to R200). -/
def Obligations.SentPacketIsReceivedWhole : Prop :=
  ∀ (p : Packet) (s : State), p.payload.length ≤ 255 → Inv Config.params s →
    s.phase = .waitingForReadStart → s.rxcount = 0 →
    p.payload.length + 1 ≤ Config.params.rxCapacityWords →
    ∃ t : State,
      runOps (.rxStart :: (receiveEvents (serialize (txImage p)) ++ [.processEvents])) s = .next t ∧
      t.phase = .idle ∧
      t.result = some (.status
        ⟨.readComplete, .none, frameOf p :: p.payload, p.payload.length + 1⟩)

/-! ## Phase sequencer, polling port -/

/-- R150, every case: an ill-typed packet is refused; a busy block answers `false`; then a line that is not quiet
answers `false`; else the image of R84 is in TXBUF (every other word of it unchanged), the registers hold what the rule
says, `KILL_TIME` is `now` plus the bound of R155, and `PHY_TX_START` carries the image. The one hypothesis on the
state, of the last case, is that TXBUF's storage is in canonical form, which it then keeps. -/
def Obligations.WriteOutcome : Prop :=
  ∀ (p : Packet) (a : Bool) (timeout : Timeout) (s : State),
    (255 < p.payload.length →
      exec (.write p a timeout) s = .next { s with result := some .refused, emitted := none }) ∧
    (p.payload.length ≤ 255 → s.phase ≠ .idle ∨ s.lineLow = true →
      exec (.write p a timeout) s = .next { s with result := some (.bit false), emitted := none }) ∧
    (p.payload.length ≤ 255 → s.phase = .idle → s.lineLow = false →
      s.canonical Config.params .txbuf = true →
      let n := p.payload.length
      let f := packFrame p.command p.recipientAddr p.senderAddr (BitVec.ofNat 8 n)
      let image : List Word := BitVec.ofNat 32 ((n + 1) * 32 + 8) :: f :: (p.payload ++
        [(checkByte (f :: p.payload)).setWidth 32 <<< 24])
      ∃ buf : Memory,
        exec (.write p a timeout) s = .next { s with
          txbuf := buf
          txlen := BitVec.ofNat 9 (n + 3)
          autostart := a
          readTimeout := timeout
          rxcount := 0
          rxtailCount := 0
          rxtailBits := 0
          fail := .none
          killTime := s.now + (((n + 1) * 32 + 8) * Config.params.nsPerBit *
            (100 + Config.params.writeTimeoutExtraPercent) + 100000 - 1) / 100000
          phase := .writeInProgress
          txActive := true
          emitted := some (.txStart image)
          result := some (.bit true) } ∧
        buf.wf (s.atReset Config.params .txbuf) = true ∧
        ∀ k : Nat, buf.read (s.atReset Config.params .txbuf) k =
          if k < n + 3 then image.getD k 0 else s.word Config.params .txbuf k)

/-- R152, R206: after a `WRITE` that returns `true` the words TXBUF holds from 0 to TXLEN - 1 are the image sent to the
PHY; the header is the bit count and the last word is the packet's check byte above 24 zero bits. -/
def Obligations.BufferedImageIsSent : Prop :=
  ∀ (p : Packet) (a : Bool) (timeout : Timeout) (s t : State),
    s.canonical Config.params .txbuf = true → exec (.write p a timeout) s = .next t → t.result = some (.bit true) →
    ∃ image : List Word,
      t.emitted = some (.txStart image) ∧
      memReadRange Config.params .txbuf t 0 t.txlen.toNat = .ok image ∧
      image.length = p.payload.length + 3 ∧
      image.head? = some (BitVec.ofNat 32 ((p.payload.length + 1) * 32 + 8)) ∧
      ∃ last : Word, image.getLast? = some last ∧ last.extractLsb' 24 8 = packetCheckByte p ∧
        last.extractLsb' 0 24 = 0

/-- R157, both cases of `START_READ`. -/
def Obligations.StartReadOutcome : Prop :=
  ∀ (timeout : Timeout) (s : State),
    (s.phase ≠ .idle →
      exec (.startRead timeout) s = .next { s with result := some (.bit false), emitted := none }) ∧
    (s.phase = .idle →
      exec (.startRead timeout) s = .next { s with
        rxcount := 0
        rxtailCount := 0
        rxtailBits := 0
        fail := .none
        killTime := s.now + timeout.toNat
        phase := .waitingForReadStart
        rxArmed := true
        emitted := some .rxArm
        result := some (.bit true) })

/-- R161: polling an idle block returns the idle Status and writes nothing. -/
def Obligations.PollIdle : Prop :=
  ∀ s : State, s.phase = .idle →
    exec .processEvents s = .next { s with
      result := some (.status ⟨.idle, .none, [], 0⟩), emitted := none }

/-- R162: polling a phase in progress whose bound is not passed returns that phase and writes nothing; at the bound
itself nothing is passed. -/
def Obligations.PollInProgressWritesNothing : Prop :=
  ∀ s : State,
    s.phase = .writeInProgress ∨ s.phase = .waitingForReadStart ∨ s.phase = .readInProgress →
    s.now ≤ s.killTime →
    (s.phase = .readInProgress → s.now ≤ s.lastRxTime + Config.params.interWordReadTimeoutUs) →
    exec .processEvents s = .next { s with
      result := some (.status ⟨s.phase, .none, [], 0⟩), emitted := none }

/-- R163: polling a completed write reports it and returns to `IDLE`. -/
def Obligations.PollWriteComplete : Prop :=
  ∀ s : State, s.phase = .writeComplete →
    exec .processEvents s = .next { s with
      phase := .idle, result := some (.status ⟨.writeComplete, .none, [], 0⟩), emitted := none }

/-- R164: polling a stored overflow reports it, clears FAIL and returns to `IDLE`. -/
def Obligations.PollOverflow : Prop :=
  ∀ s : State, s.phase = .readFailed → s.fail = .bufferOverflow →
    exec .processEvents s = .next { s with
      phase := .idle, fail := .none
      result := some (.status ⟨.readFailed, .bufferOverflow, [], 0⟩), emitted := none }

/-- R165, R166, R167: a poll strictly past a bound of the phase in progress stops the PHY, returns to `IDLE` and
reports `TIMEOUT`: `WRITE_FAILED` for a write, `READ_FAILED` for a wait or a read, and for a read either bound is
enough. -/
def Obligations.PollPastBoundTimesOut : Prop :=
  ∀ s : State,
    (s.phase = .writeInProgress → s.killTime < s.now →
      exec .processEvents s = .next { s with
        phase := .idle, txActive := false, rxArmed := false, emitted := some .abort
        result := some (.status ⟨.writeFailed, .timeout, [], 0⟩) }) ∧
    (s.phase = .waitingForReadStart → s.killTime < s.now →
      exec .processEvents s = .next { s with
        phase := .idle, txActive := false, rxArmed := false, emitted := some .abort
        result := some (.status ⟨.readFailed, .timeout, [], 0⟩) }) ∧
    (s.phase = .readInProgress →
      s.killTime < s.now ∨ s.lastRxTime + Config.params.interWordReadTimeoutUs < s.now →
      exec .processEvents s = .next { s with
        phase := .idle, txActive := false, rxArmed := false, emitted := some .abort
        result := some (.status ⟨.readFailed, .timeout, [], 0⟩) })

/-- R168: polling a finished receive runs the checks in their order, returns to `IDLE`, and gives the words out only
when every check passes. The hypotheses say which words RXBUF holds below RXCOUNT. -/
def Obligations.PollValidatesReceive : Prop :=
  ∀ (s : State) (ws : List Word), s.phase = .readComplete → s.rxcount = ws.length →
    ws.length ≤ Config.params.rxCapacityWords →
    (∀ k : Nat, k < ws.length → ws[k]? = some (s.word Config.params .rxbuf k)) →
    exec .processEvents s = .next { s with
      phase := .idle
      emitted := none
      result := some (.status (
        if ws.length = 0 then ⟨.readFailed, .missingData, [], 0⟩
        else if ws.length < ((ws.headD 0).extractLsb' 0 8).toNat + 1 then ⟨.readFailed, .missingData, [], 0⟩
        else if s.rxtailCount ≠ 8 then ⟨.readFailed, .crcInvalid, [], 0⟩
        else if checkByte ws ≠ s.rxtailBits.extractLsb' 0 8 then ⟨.readFailed, .crcInvalid, [], 0⟩
        else ⟨.readComplete, .none, ws, ws.length⟩)) }

/-- R169: more words than declared, with a matching check byte over all of them, are a complete read of all of them;
with a check byte that does not match they are `CRC_INVALID`. Said of the operation under every configuration, since
only one with two words of room can show it; the operation of the machine is the one under its own configuration. -/
def Obligations.OversizedReceiveAccepted : Prop :=
  (∀ s : State, exec .processEvents s = runProcessEvents Config.params s) ∧
  ∀ (cfg : Params) (s : State) (ws : List Word), s.phase = .readComplete → s.rxcount = ws.length →
    ws.length ≤ cfg.rxCapacityWords →
    (∀ k : Nat, k < ws.length → ws[k]? = some (s.word cfg .rxbuf k)) →
    ((ws.headD 0).extractLsb' 0 8).toNat + 1 < ws.length → s.rxtailCount = 8 →
    ∃ t : State, runProcessEvents cfg s = .next t ∧ t.phase = .idle ∧
      t.result = some (.status (
        if checkByte ws = s.rxtailBits.extractLsb' 0 8 then ⟨.readComplete, .none, ws, ws.length⟩
        else ⟨.readFailed, .crcInvalid, [], 0⟩))

/-- The stored values the rules cannot reach stop a poll with a fault, as the list of open behaviour asks
(spec/93_implementation_defined.md I5; log entry 11). -/
def Obligations.UnreachablePhasesFault : Prop :=
  ∀ s : State,
    (s.phase = .writeFailed → exec .processEvents s = .fault .writeFailedStored) ∧
    (s.phase = .readFailed → s.fail ≠ .bufferOverflow →
      exec .processEvents s = .fault (.readFailedWithoutOverflow s.fail))

/-- R170: `IS_BUSY` is `PHASE ≠ IDLE`, and it is `false` exactly when a `START_READ` in its place, and exactly when a
`WRITE` of a Packet on a quiet line in its place, returns `true`. -/
def Obligations.IsBusyResult : Prop :=
  ∀ s : State,
    exec .isBusy s = .next { s with result := some (.bit (decide (s.phase ≠ .idle))), emitted := none } ∧
    (∀ timeout : Timeout,
      (∃ t, exec (.startRead timeout) s = .next t ∧ t.result = some (.bit true)) ↔ s.phase = .idle) ∧
    (∀ (p : Packet) (a : Bool) (timeout : Timeout),
      p.payload.length ≤ 255 → s.lineLow = false → s.canonical Config.params .txbuf = true →
      ((∃ t, exec (.write p a timeout) s = .next t ∧ t.result = some (.bit true)) ↔ s.phase = .idle))

/-! ## PHY events -/

/-- R190, its three cases: ignored outside `WRITE_IN_PROGRESS`; with `AUTOSTART` the receiver is armed and the response
timeout counts from this step; without it the write is complete. -/
def Obligations.TxDoneOutcome : Prop :=
  ∀ s : State,
    (s.phase ≠ .writeInProgress → exec .txDone s = .next { s with result := none, emitted := none }) ∧
    (s.phase = .writeInProgress → s.autostart = true →
      exec .txDone s = .next { s with
        rxcount := 0
        rxtailCount := 0
        rxtailBits := 0
        killTime := s.now + s.readTimeout.toNat
        phase := .waitingForReadStart
        txActive := false
        rxArmed := true
        emitted := some .rxArm
        result := none }) ∧
    (s.phase = .writeInProgress → s.autostart = false →
      exec .txDone s = .next { s with
        phase := .writeComplete, txActive := false, result := none, emitted := none })

/-- R193 with the bound of R156. -/
def Obligations.RxStartOutcome : Prop :=
  ∀ s : State,
    (s.phase ≠ .waitingForReadStart → exec .rxStart s = .next { s with result := none, emitted := none }) ∧
    (s.phase = .waitingForReadStart →
      exec .rxStart s = .next { s with
        lastRxTime := s.now
        killTime := s.now + ((Config.params.rxCapacityWords * 32 + 8) * Config.params.nsPerBit *
          (100 + Config.params.writeTimeoutExtraPercent) + 100000 - 1) / 100000
        phase := .readInProgress
        result := none
        emitted := none })

/-- R196, its three cases: ignored outside `READ_IN_PROGRESS`; a full buffer drops the word, stores the overflow and
stops the PHY; else the word is stored at RXCOUNT, every other word of RXBUF is unchanged, the storage stays in canonical
form, and the inter-word clock restarts. -/
def Obligations.RxWordOutcome : Prop :=
  ∀ (w : Word) (s : State),
    (s.phase ≠ .readInProgress → exec (.rxWord w) s = .next { s with result := none, emitted := none }) ∧
    (s.phase = .readInProgress → s.rxcount = Config.params.rxCapacityWords →
      exec (.rxWord w) s = .next { s with
        fail := .bufferOverflow
        phase := .readFailed
        txActive := false
        rxArmed := false
        emitted := some .abort
        result := none }) ∧
    (s.phase = .readInProgress → s.rxcount < Config.params.rxCapacityWords →
      s.canonical Config.params .rxbuf = true →
      ∃ buf : Memory,
        exec (.rxWord w) s = .next { s with
          rxbuf := buf
          rxcount := s.rxcount + 1
          lastRxTime := s.now
          result := none
          emitted := none } ∧
        buf.wf (s.atReset Config.params .rxbuf) = true ∧
        ∀ k : Nat, buf.read (s.atReset Config.params .rxbuf) k =
          if k = s.rxcount then w else s.word Config.params .rxbuf k)

/-- R199, its cases, and the refusal of a tail count above 31 (R97). -/
def Obligations.RxEndOutcome : Prop :=
  ∀ (tc : Nat) (tb : Word) (s : State),
    (31 < tc → exec (.rxEnd tc tb) s = .next { s with result := some .refused, emitted := none }) ∧
    (tc ≤ 31 → s.phase ≠ .readInProgress →
      exec (.rxEnd tc tb) s = .next { s with result := none, emitted := none }) ∧
    (tc ≤ 31 → s.phase = .readInProgress →
      ∃ count : BitVec 5, count.toNat = tc ∧
        exec (.rxEnd tc tb) s = .next { s with
          rxtailCount := count
          rxtailBits := tb
          phase := .readComplete
          rxArmed := false
          result := none
          emitted := none })

/-- R202: an event in a phase other than the one that takes it changes nothing but the outputs, and emits and returns
nothing. A PHY that keeps its duties never sends such an event: where what the PHY is doing fits the phase, an event it may deliver is one the phase takes. -/
def Obligations.EventsIgnoredOutsideTheirPhase : Prop :=
  (∀ (i : Instr) (s : State), i.WellFormed → i.port = .event → takingPhase i ≠ some s.phase →
    exec i s = .next { s with result := none, emitted := none }) ∧
  (∀ (i : Instr) (op : Nat) (s : State), s.phy.activity.fits s.phase → s.phy.mayDeliver op i = true →
    EventLegal i s)

/-! ## The whole machine -/

/-- Every step keeps the invariants of R38 and R31, the canonical form of both buffers and their bounds, from every
state that has them; and from such a state in which what the PHY is doing fits the phase, it fits after the step too. -/
def Obligations.InvariantKept : Prop :=
  (∀ s t : State, Inv Config.params s → step s = .next t → Inv Config.params t) ∧
  (∀ s t : State, Inv Config.params s → s.phy.activity.fits s.phase → step s = .next t →
    t.phy.activity.fits t.phase)

/-- The invariants hold at reset, and what the PHY is doing fits the phase. -/
def Obligations.InvariantAtReset : Prop :=
  Inv Config.params State.reset ∧ State.reset.phy.activity.fits State.reset.phase

/-- From every state that has the invariants, every step goes on: no buffer access is out of range, no unreachable phase is found, and no operation is without a meaning (R61, R220). -/
def Obligations.GoodStatesNeverStop : Prop :=
  ∀ s : State, Inv Config.params s → ∃ t : State, step s = .next t

/-- Every memory operation of a step keeps both buffers in canonical form, whatever else the state holds. -/
def Obligations.BuffersStayCanonical : Prop :=
  ∀ s t : State, s.canonical Config.params .txbuf = true → s.canonical Config.params .rxbuf = true →
    step s = .next t → t.canonical Config.params .txbuf = true ∧ t.canonical Config.params .rxbuf = true

/-- The phase transitions are exactly those of the table of R171: an operation that changes the stored phase does so by
a row of the table, and from a good state every row's operation makes the row's change. -/
def Obligations.PhaseTransitionsAsListed : Prop :=
  (∀ (i : Instr) (s t : State), exec i s = .next t →
    t.phase = s.phase ∨ PhaseStep Config.params s i t.phase) ∧
  (∀ (i : Instr) (s : State) (q : Phase), i.WellFormed → Inv Config.params s →
    PhaseStep Config.params s i q → ∃ t : State, exec i s = .next t ∧ t.phase = q)

/-- The writers of each state element, from a good state: an operation or event that changes the element is one the
table of R37 lists. -/
def Obligations.WritersAsListed : Prop :=
  ∀ (i : Instr) (s t : State), Inv Config.params s → exec i s = .next t →
    (t.fail ≠ s.fail → (i = .processEvents ∧ t.fail = .none) ∨
      (∃ w, i = .rxWord w ∧ t.fail = .bufferOverflow)) ∧
    (t.killTime ≠ s.killTime → (∃ p a o, i = .write p a o) ∨ (∃ o, i = .startRead o) ∨ i = .txDone ∨
      i = .rxStart) ∧
    (t.lastRxTime ≠ s.lastRxTime → i = .rxStart ∨ ∃ w, i = .rxWord w) ∧
    (t.autostart ≠ s.autostart ∨ t.readTimeout ≠ s.readTimeout ∨ t.txbuf ≠ s.txbuf ∨ t.txlen ≠ s.txlen →
      ∃ p a o, i = .write p a o) ∧
    (t.rxbuf ≠ s.rxbuf → ∃ w, i = .rxWord w) ∧
    (t.rxcount ≠ s.rxcount → (∃ p a o, i = .write p a o) ∨ (∃ o, i = .startRead o) ∨ i = .txDone ∨
      ∃ w, i = .rxWord w) ∧
    (t.rxtailCount ≠ s.rxtailCount ∨ t.rxtailBits ≠ s.rxtailBits →
      (∃ p a o, i = .write p a o) ∨ (∃ o, i = .startRead o) ∨ i = .txDone ∨ ∃ tc tb, i = .rxEnd tc tb)

/-- The ownership of R76: while an exchange is in flight or its result is not consumed, no operation and no event
writes TXBUF or TXLEN. -/
def Obligations.TransmitBufferOwned : Prop :=
  ∀ (i : Instr) (s t : State), s.phase ≠ .idle → exec i s = .next t →
    t.txbuf = s.txbuf ∧ t.txlen = s.txlen

/-- R159: while the phase stays the same the kill-time does not change, and a step that changes it counts from the time
it reads. -/
def Obligations.KillTimeIsAbsolute : Prop :=
  ∀ (i : Instr) (s t : State), exec i s = .next t →
    (t.phase = s.phase → t.killTime = s.killTime) ∧
    (t.killTime ≠ s.killTime → s.now ≤ t.killTime)

/-- The commands of R206: `PHY_TX_START` comes from `WRITE` only; `PHY_RX_ARM` from `START_READ` and from `TX_DONE` with
`AUTOSTART`; `PHY_ABORT` from a poll that reports `TIMEOUT` and from an overflow; and each sets the PHY bits as the rule
says. -/
def Obligations.CommandsAsListed : Prop :=
  ∀ (i : Instr) (s t : State) (c : PhyCommand), exec i s = .next t → t.emitted = some c →
    match c with
    | .txStart _ => (∃ p a o, i = .write p a o) ∧ t.txActive = true
    | .rxArm => ((∃ o, i = .startRead o) ∨ (i = .txDone ∧ s.autostart = true)) ∧ t.rxArmed = true
    | .abort => t.txActive = false ∧ t.rxArmed = false ∧
        ((i = .processEvents ∧ ∃ q, t.result = some (.status ⟨q, .timeout, [], 0⟩)) ∨
         (∃ w, i = .rxWord w ∧ t.fail = .bufferOverflow))

/-- The bound of R174: from a good state, one poll after the kill-time, or in a terminal phase at any time, returns the
block to `IDLE`. -/
def Obligations.OnePollAfterTheBoundEnds : Prop :=
  ∀ s : State, Inv Config.params s →
    s.killTime < s.now ∨ s.phase = .writeComplete ∨ s.phase = .readComplete ∨ s.phase = .readFailed →
    ∃ t : State, exec .processEvents s = .next t ∧ t.phase = .idle
end

