-- ==== Sys2Proof/Laws/Decode.lean ====
section
/-! SUPPORT. The operation map row by row, and what a decoded descriptor tells. -/

namespace Sys2Proof

/-- The name of an operation. -/
def Instr.opName : Instr → OpName
  | .write _ _ _ => .write
  | .startRead _ => .startRead
  | .processEvents => .processEvents
  | .isBusy => .isBusy
  | .framePack _ _ _ _ => .framePack
  | .frameUnpack _ => .frameUnpack
  | .pktValid _ => .pktValid
  | .crc8 _ => .crc8
  | .wordFlip _ => .wordFlip
  | .payloadSet _ _ => .payloadSet
  | .payloadSetFlipped _ _ => .payloadSetFlipped
  | .payloadAppend _ _ => .payloadAppend
  | .payloadAppendFlipped _ _ => .payloadAppendFlipped
  | .totalBits _ => .totalBits
  | .txTimeNs _ => .txTimeNs
  | .txDone => .txDone
  | .rxStart => .rxStart
  | .rxWord _ => .rxWord
  | .rxEnd _ _ => .rxEnd

/-- The `OP` byte a name has in the map. -/
def OpName.code : OpName → Byte
  | .write => 0x01 | .startRead => 0x02 | .processEvents => 0x03 | .isBusy => 0x04
  | .framePack => 0x10 | .frameUnpack => 0x11 | .pktValid => 0x12 | .crc8 => 0x13 | .wordFlip => 0x14
  | .payloadSet => 0x15 | .payloadSetFlipped => 0x16 | .payloadAppend => 0x17
  | .payloadAppendFlipped => 0x18 | .totalBits => 0x19 | .txTimeNs => 0x1A
  | .txDone => 0x80 | .rxStart => 0x81 | .rxWord => 0x82 | .rxEnd => 0x83

/-- A row found in a list of map rows stands in it. -/
theorem lookupIn_mem {rows : List (Byte × OpName)} {op : Byte} {name : OpName}
    (h : lookupIn rows op = some name) : (op, name) ∈ rows := by
  induction rows with
  | nil => simp [lookupIn] at h
  | cons row rest ih =>
    obtain ⟨code, n⟩ := row
    unfold lookupIn at h
    split at h
    · rename_i hop; cases h; subst hop; exact .head _
    · exact .tail _ (ih h)

/-- The map's rows are those of `OpName.code`. -/
theorem opMap_codes : ∀ row ∈ opMap, row.1 = row.2.code := by decide

/-- Every name is found under its code. -/
theorem lookupOp_code (name : OpName) : lookupOp name.code = some name := by cases name <;> rfl

/-- An `OP` byte selects a name exactly when it is that name's code. -/
theorem lookupOp_eq_some {op : Byte} {name : OpName} : lookupOp op = some name ↔ op = name.code :=
  ⟨fun h => opMap_codes _ (lookupIn_mem h), fun h => h ▸ lookupOp_code name⟩

/-! What each operand reader accepts. -/

theorem readNone_eq_some {j i : Instr} {os : List Operand} :
    readNone j os = some i ↔ os = [] ∧ j = i := by
  unfold readNone; split <;> simp_all

theorem readWord_eq_some {make : Word → Instr} {i : Instr} {os : List Operand} :
    readWord make os = some i ↔ ∃ w, os = [.u32 w] ∧ make w = i := by
  unfold readWord; split <;> simp_all

theorem readNat_eq_some {make : Nat → Instr} {i : Instr} {os : List Operand} :
    readNat make os = some i ↔ ∃ n, os = [.nat n] ∧ make n = i := by
  unfold readNat; split <;> simp_all

theorem readPacket_eq_some {make : Packet → Instr} {i : Instr} {os : List Operand} :
    readPacket make os = some i ↔ ∃ p, os = [.packet p] ∧ make p = i := by
  unfold readPacket; split <;> simp_all

theorem readWords_eq_some {make : List Word → Instr} {i : Instr} {os : List Operand} :
    readWords make os = some i ↔ ∃ ws, os = [.words ws] ∧ make ws = i := by
  unfold readWords; split <;> simp_all

theorem readPacketWords_eq_some {make : Packet → List Word → Instr} {i : Instr} {os : List Operand} :
    readPacketWords make os = some i ↔ ∃ p ws, os = [.packet p, .words ws] ∧ make p ws = i := by
  unfold readPacketWords; split <;> simp_all

theorem readWrite_eq_some {i : Instr} {os : List Operand} :
    readWrite os = some i ↔ ∃ p a t, os = [.packet p, .bit a, .u32 t] ∧ .write p a t = i := by
  unfold readWrite
  split
  · rename_i p a t
    constructor
    · rintro ⟨⟩; exact ⟨p, a, t, rfl, rfl⟩
    · rintro ⟨_, _, _, h, rfl⟩; cases h; rfl
  · rename_i h
    constructor
    · rintro ⟨⟩
    · rintro ⟨p, a, t, rfl, _⟩; exact (h p a t rfl).elim

theorem readFrameBytes_eq_some {i : Instr} {os : List Operand} :
    readFrameBytes os = some i ↔
      ∃ c r s l, os = [.u8 c, .u8 r, .u8 s, .u8 l] ∧ .framePack c r s l = i := by
  unfold readFrameBytes; split <;> simp_all

theorem readTail_eq_some {i : Instr} {os : List Operand} :
    readTail os = some i ↔ ∃ tc tb, os = [.nat tc, .u32 tb] ∧ .rxEnd tc tb = i := by
  unfold readTail; split <;> simp_all

/-- Everything a decoded descriptor tells: its name, its port, its operands, and that they keep their types. -/
theorem decode_eq_ok {port : Port} {d : Descriptor} {i : Instr} :
    decode port d = .ok i ↔
      ∃ name, lookupOp d.op = some name ∧ portOf d.op = port ∧ readOperands name d.operands = some i ∧
        i.WellFormed := by
  unfold decode
  constructor
  · intro h
    split at h
    · cases h
    · rename_i name hname
      split at h
      · rename_i hport
        split at h
        · cases h
        · rename_i i' hi
          split at h
          · rename_i hwf; cases h; exact ⟨name, hname, hport, hi, hwf⟩
          · cases h
      · cases h
  · rintro ⟨name, hname, hport, hi, hwf⟩
    simp only [hname, hport, hi, if_true]
    rw [if_pos hwf]

/-- The operands of a name make an operation of that name. -/
theorem readOperands_opName {name : OpName} {os : List Operand} {i : Instr}
    (h : readOperands name os = some i) : i.opName = name := by
  cases name <;> simp only [readOperands, readNone_eq_some, readWord_eq_some, readNat_eq_some,
    readPacket_eq_some, readWords_eq_some, readPacketWords_eq_some, readWrite_eq_some,
    readFrameBytes_eq_some, readTail_eq_some] at h <;> obtain ⟨_, h⟩ := h <;>
    first
    | (subst h; rfl)
    | (obtain ⟨_, h⟩ := h; first
        | (subst h; rfl)
        | (obtain ⟨_, h⟩ := h; first
            | (subst h; rfl)
            | (obtain ⟨_, _, rfl⟩ := h; rfl)))

/-- The port of a name, as the map lists it. -/
def OpName.port : OpName → Port
  | .write | .startRead | .processEvents | .isBusy | .framePack | .frameUnpack | .pktValid | .crc8 | .wordFlip
  | .payloadSet | .payloadSetFlipped | .payloadAppend | .payloadAppendFlipped | .totalBits | .txTimeNs => .polling
  | .txDone | .rxStart | .rxWord | .rxEnd => .event

theorem OpName.port_eq (name : OpName) : name.port = portOf name.code := by cases name <;> decide

/-- An operation's port is that of its name. -/
theorem Instr.port_eq (i : Instr) : i.port = i.opName.port := by
  rw [OpName.port_eq]; cases i <;> rfl

/-- What arrives on a port and decodes is an operation of that port, with operands of their types. -/
theorem decode_port {port : Port} {d : Descriptor} {i : Instr} (h : decode port d = .ok i) :
    i.port = port ∧ i.WellFormed := by
  obtain ⟨name, hname, hport, hi, hwf⟩ := decode_eq_ok.1 h
  refine ⟨?_, hwf⟩
  rw [i.port_eq, OpName.port_eq, readOperands_opName hi, ← lookupOp_eq_some.1 hname, hport]

end Sys2Proof
end

