-- ==== Sys2Proof/Laws/Memory.lean ====
section
/-! SUPPORT. Read after write, the canonical form and the bounds of a buffer's storage. -/

namespace Sys2Proof.Machine

variable {fill : Nat → Word} {m : Memory}

@[simp] theorem Memory.read_nil (i : Nat) : Memory.read fill [] i = fill i := rfl

@[simp] theorem Memory.wf_nil : Memory.wf fill [] = true := rfl

@[simp] theorem Memory.within_nil (size : Nat) : Memory.within size [] = true := rfl

theorem Memory.wf_iff : m.wf fill = true ↔ m.risesFrom 0 = true ∧ m.differs fill = true := by
  simp [Memory.wf]

/-- A lower bound can be lowered. -/
theorem Memory.risesFrom_mono {a b : Nat} (hab : a ≤ b) (h : m.risesFrom b = true) : m.risesFrom a = true := by
  cases m with
  | nil => rfl
  | cons cell rest =>
    obtain ⟨k, w⟩ := cell
    simp only [Memory.risesFrom, Bool.and_eq_true, decide_eq_true_eq] at h ⊢
    exact ⟨hab.trans h.1, h.2⟩

/-- Below the lower bound every word reads as it does unlisted. -/
theorem Memory.read_below {low i : Nat} (h : m.risesFrom low = true) (hi : i < low) :
    m.read fill i = fill i := by
  induction m generalizing low with
  | nil => rfl
  | cons cell rest ih =>
    obtain ⟨k, w⟩ := cell
    simp only [Memory.risesFrom, Bool.and_eq_true, decide_eq_true_eq] at h
    rw [Memory.read, if_neg (by omega), ih h.2 (by omega)]

/-- Listing a word sets its value and no other. -/
theorem Memory.read_insert (i j : Nat) (v : Word) :
    (m.insert i v).read fill j = if j = i then v else m.read fill j := by
  induction m with
  | nil =>
    by_cases hj : j = i
    · simp [Memory.insert, Memory.read, hj]
    · simp [Memory.insert, Memory.read, hj, Ne.symm hj]
  | cons cell rest ih =>
    obtain ⟨k, w⟩ := cell
    unfold Memory.insert
    split
    · by_cases hj : j = i
      · subst hj; simp [Memory.read]
      · simp [Memory.read, hj, Ne.symm hj]
    · split
      · rename_i hik; subst hik
        by_cases hj : j = i
        · subst hj; simp [Memory.read]
        · simp [Memory.read, hj, Ne.symm hj]
      · rename_i hik
        simp only [Memory.read, ih]
        by_cases hk : k = j
        · subst hk; simp [Ne.symm hik]
        · simp [hk]

/-- Taking a word off the list makes it read as it does unlisted, and no other. -/
theorem Memory.read_remove {low : Nat} (h : m.risesFrom low = true) (i j : Nat) :
    (m.remove i).read fill j = if j = i then fill i else m.read fill j := by
  induction m generalizing low with
  | nil => by_cases hj : j = i <;> simp [Memory.remove, hj]
  | cons cell rest ih =>
    obtain ⟨k, w⟩ := cell
    simp only [Memory.risesFrom, Bool.and_eq_true, decide_eq_true_eq] at h
    unfold Memory.remove
    split
    · rename_i hki; subst hki
      by_cases hj : j = k
      · subst hj; rw [if_pos rfl, Memory.read_below h.2 (Nat.lt_succ_self _)]
      · rw [if_neg hj, Memory.read, if_neg (Ne.symm hj)]
    · rename_i hki
      simp only [Memory.read, ih h.2]
      by_cases hkj : k = j
      · subst hkj; simp [hki]
      · simp [hkj]

/-- A read after a write gives the value written at its index, and what was there before elsewhere. -/
theorem Memory.read_write (h : m.wf fill = true) (i j : Nat) (v : Word) :
    (m.write fill i v).read fill j = if j = i then v else m.read fill j := by
  unfold Memory.write
  split
  · rename_i hv; rw [hv]; exact Memory.read_remove (Memory.wf_iff.1 h).1 i j
  · exact Memory.read_insert i j v

theorem Memory.risesFrom_insert {low i : Nat} (v : Word) (h : m.risesFrom low = true) (hi : low ≤ i) :
    (m.insert i v).risesFrom low = true := by
  induction m generalizing low with
  | nil => simp [Memory.insert, Memory.risesFrom, hi]
  | cons cell rest ih =>
    obtain ⟨k, w⟩ := cell
    simp only [Memory.risesFrom, Bool.and_eq_true, decide_eq_true_eq] at h
    unfold Memory.insert
    split
    · rename_i hik
      simp only [Memory.risesFrom, Bool.and_eq_true, decide_eq_true_eq]
      exact ⟨hi, hik, h.2⟩
    · split
      · rename_i hik; subst hik
        simp only [Memory.risesFrom, Bool.and_eq_true, decide_eq_true_eq]
        exact ⟨hi, h.2⟩
      · simp only [Memory.risesFrom, Bool.and_eq_true, decide_eq_true_eq]
        exact ⟨h.1, ih h.2 (by omega)⟩

theorem Memory.risesFrom_remove {low : Nat} (i : Nat) (h : m.risesFrom low = true) :
    (m.remove i).risesFrom low = true := by
  induction m generalizing low with
  | nil => rfl
  | cons cell rest ih =>
    obtain ⟨k, w⟩ := cell
    simp only [Memory.risesFrom, Bool.and_eq_true, decide_eq_true_eq] at h
    unfold Memory.remove
    split
    · exact Memory.risesFrom_mono (by omega) h.2
    · simp only [Memory.risesFrom, Bool.and_eq_true, decide_eq_true_eq]
      exact ⟨h.1, ih h.2⟩

/-- What holds of every listed cell and of the cell put in holds of every cell then listed. -/
theorem Memory.all_insert {p : Nat × Word → Bool} {i : Nat} {v : Word} (hp : p (i, v) = true)
    (h : m.all p = true) : (m.insert i v).all p = true := by
  induction m with
  | nil => simp [Memory.insert, hp]
  | cons cell rest ih =>
    obtain ⟨k, w⟩ := cell
    simp only [List.all_cons, Bool.and_eq_true] at h
    unfold Memory.insert
    split
    · simp only [List.all_cons, Bool.and_eq_true]; exact ⟨hp, h⟩
    · split
      · simp only [List.all_cons, Bool.and_eq_true]; exact ⟨hp, h.2⟩
      · simp only [List.all_cons, Bool.and_eq_true]; exact ⟨h.1, ih h.2⟩

/-- What holds of every listed cell holds of those left after one is taken off. -/
theorem Memory.all_remove {p : Nat × Word → Bool} (i : Nat) (h : m.all p = true) :
    (m.remove i).all p = true := by
  induction m with
  | nil => rfl
  | cons cell rest ih =>
    obtain ⟨k, w⟩ := cell
    simp only [List.all_cons, Bool.and_eq_true] at h
    unfold Memory.remove
    split
    · exact h.2
    · simp only [List.all_cons, Bool.and_eq_true]; exact ⟨h.1, ih h.2⟩

/-- Every write keeps the canonical form. -/
theorem Memory.wf_write (i : Nat) (v : Word) (h : m.wf fill = true) : (m.write fill i v).wf fill = true := by
  obtain ⟨hr, hd⟩ := Memory.wf_iff.1 h
  unfold Memory.write
  split
  · exact Memory.wf_iff.2 ⟨Memory.risesFrom_remove i hr, Memory.all_remove i hd⟩
  · rename_i hv
    exact Memory.wf_iff.2 ⟨Memory.risesFrom_insert v hr (Nat.zero_le i), Memory.all_insert (by simpa using hv) hd⟩

/-- A write inside the size keeps the storage inside it. -/
theorem Memory.within_write {size i : Nat} (v : Word) (hi : i < size) (h : m.within size = true) :
    (m.write fill i v).within size = true := by
  unfold Memory.write
  split
  · exact Memory.all_remove i h
  · exact Memory.all_insert (by simpa using hi) h

/-- Where the first listed word of one storage is first listed, and it is not in the other, the two read apart. -/
theorem Memory.read_head_ne {k : Nat} {w : Word} {low : Nat} (hk : k < low) (hm : m.risesFrom low = true)
    (hw : w ≠ fill k) : w ≠ m.read fill k := by
  rw [Memory.read_below hm hk]; exact hw

/-- Equal contents are equal data: two storages in canonical form that read alike are the same list. -/
theorem Memory.eq_of_read {a b : Memory} (ha : a.wf fill = true) (hb : b.wf fill = true)
    (h : ∀ i, a.read fill i = b.read fill i) : a = b := by
  suffices H : ∀ (a b : Memory) (low : Nat), a.risesFrom low = true → b.risesFrom low = true →
      a.differs fill = true → b.differs fill = true → (∀ i, low ≤ i → a.read fill i = b.read fill i) → a = b from
    H a b 0 (Memory.wf_iff.1 ha).1 (Memory.wf_iff.1 hb).1 (Memory.wf_iff.1 ha).2 (Memory.wf_iff.1 hb).2
      fun i _ => h i
  intro a
  induction a with
  | nil =>
    intro b low _ hb _ hdb h
    cases b with
    | nil => rfl
    | cons cell rest =>
      obtain ⟨k, w⟩ := cell
      simp only [Memory.risesFrom, Memory.differs, List.all_cons, Bool.and_eq_true, decide_eq_true_eq] at hb hdb
      have := h k hb.1
      simp only [Memory.read, if_true] at this
      exact (hdb.1 this.symm).elim
  | cons cell rest ih =>
    obtain ⟨k, w⟩ := cell
    intro b low ha hb hda hdb h
    simp only [Memory.risesFrom, Memory.differs, List.all_cons, Bool.and_eq_true, decide_eq_true_eq] at ha hda
    cases b with
    | nil =>
      have := h k ha.1
      simp only [Memory.read, if_true] at this
      exact (hda.1 this).elim
    | cons cell' rest' =>
      obtain ⟨k', w'⟩ := cell'
      simp only [Memory.risesFrom, Memory.differs, List.all_cons, Bool.and_eq_true, decide_eq_true_eq] at hb hdb
      have hk := h k ha.1
      have hk' := h k' hb.1
      simp only [Memory.read, if_true] at hk hk'
      rcases Nat.lt_trichotomy k k' with hlt | rfl | hlt
      · rw [if_neg (by omega)] at hk
        exact (Memory.read_head_ne (by omega) hb.2 hda.1 hk).elim
      · rw [if_pos rfl] at hk
        subst hk
        refine congrArg _ (ih rest' (k + 1) ha.2 hb.2 hda.2 hdb.2 fun i hi => ?_)
        have := h i (by omega)
        simpa only [Memory.read, if_neg (show k ≠ i by omega)] using this
      · rw [if_neg (by omega)] at hk'
        exact (Memory.read_head_ne (by omega) ha.2 hdb.1 hk'.symm).elim

end Sys2Proof.Machine
end

