-- ==== Sys2Proof/Laws/State.lean ====
section
/-! SUPPORT. One lemma per field for each basic update of State. -/

namespace Sys2Proof.Machine

variable (s : State)

/-! clearOutputs -/

@[simp] theorem State.clearOutputs_phase : s.clearOutputs.phase = s.phase := rfl
@[simp] theorem State.clearOutputs_fail : s.clearOutputs.fail = s.fail := rfl
@[simp] theorem State.clearOutputs_killTime : s.clearOutputs.killTime = s.killTime := rfl
@[simp] theorem State.clearOutputs_lastRxTime : s.clearOutputs.lastRxTime = s.lastRxTime := rfl
@[simp] theorem State.clearOutputs_autostart : s.clearOutputs.autostart = s.autostart := rfl
@[simp] theorem State.clearOutputs_readTimeout : s.clearOutputs.readTimeout = s.readTimeout := rfl
@[simp] theorem State.clearOutputs_txbuf : s.clearOutputs.txbuf = s.txbuf := rfl
@[simp] theorem State.clearOutputs_txlen : s.clearOutputs.txlen = s.txlen := rfl
@[simp] theorem State.clearOutputs_rxbuf : s.clearOutputs.rxbuf = s.rxbuf := rfl
@[simp] theorem State.clearOutputs_rxcount : s.clearOutputs.rxcount = s.rxcount := rfl
@[simp] theorem State.clearOutputs_rxtailCount : s.clearOutputs.rxtailCount = s.rxtailCount := rfl
@[simp] theorem State.clearOutputs_rxtailBits : s.clearOutputs.rxtailBits = s.rxtailBits := rfl
@[simp] theorem State.clearOutputs_txActive : s.clearOutputs.txActive = s.txActive := rfl
@[simp] theorem State.clearOutputs_rxArmed : s.clearOutputs.rxArmed = s.rxArmed := rfl
@[simp] theorem State.clearOutputs_now : s.clearOutputs.now = s.now := rfl
@[simp] theorem State.clearOutputs_lineLow : s.clearOutputs.lineLow = s.lineLow := rfl
@[simp] theorem State.clearOutputs_resetAsserted : s.clearOutputs.resetAsserted = s.resetAsserted := rfl
@[simp] theorem State.clearOutputs_result : s.clearOutputs.result = none := rfl
@[simp] theorem State.clearOutputs_emitted : s.clearOutputs.emitted = none := rfl
@[simp] theorem State.clearOutputs_phy : s.clearOutputs.phy = s.phy := rfl
@[simp] theorem State.clearOutputs_resets : s.clearOutputs.resets = s.resets := rfl
@[simp] theorem State.clearOutputs_schedule : s.clearOutputs.schedule = s.schedule := rfl

/-! answer -/

@[simp] theorem State.answer_phase (r : Result) : (s.answer r).phase = s.phase := rfl
@[simp] theorem State.answer_fail (r : Result) : (s.answer r).fail = s.fail := rfl
@[simp] theorem State.answer_killTime (r : Result) : (s.answer r).killTime = s.killTime := rfl
@[simp] theorem State.answer_lastRxTime (r : Result) : (s.answer r).lastRxTime = s.lastRxTime := rfl
@[simp] theorem State.answer_autostart (r : Result) : (s.answer r).autostart = s.autostart := rfl
@[simp] theorem State.answer_readTimeout (r : Result) : (s.answer r).readTimeout = s.readTimeout := rfl
@[simp] theorem State.answer_txbuf (r : Result) : (s.answer r).txbuf = s.txbuf := rfl
@[simp] theorem State.answer_txlen (r : Result) : (s.answer r).txlen = s.txlen := rfl
@[simp] theorem State.answer_rxbuf (r : Result) : (s.answer r).rxbuf = s.rxbuf := rfl
@[simp] theorem State.answer_rxcount (r : Result) : (s.answer r).rxcount = s.rxcount := rfl
@[simp] theorem State.answer_rxtailCount (r : Result) : (s.answer r).rxtailCount = s.rxtailCount := rfl
@[simp] theorem State.answer_rxtailBits (r : Result) : (s.answer r).rxtailBits = s.rxtailBits := rfl
@[simp] theorem State.answer_txActive (r : Result) : (s.answer r).txActive = s.txActive := rfl
@[simp] theorem State.answer_rxArmed (r : Result) : (s.answer r).rxArmed = s.rxArmed := rfl
@[simp] theorem State.answer_now (r : Result) : (s.answer r).now = s.now := rfl
@[simp] theorem State.answer_lineLow (r : Result) : (s.answer r).lineLow = s.lineLow := rfl
@[simp] theorem State.answer_resetAsserted (r : Result) : (s.answer r).resetAsserted = s.resetAsserted := rfl
@[simp] theorem State.answer_result (r : Result) : (s.answer r).result = some r := rfl
@[simp] theorem State.answer_emitted (r : Result) : (s.answer r).emitted = s.emitted := rfl
@[simp] theorem State.answer_phy (r : Result) : (s.answer r).phy = s.phy := rfl
@[simp] theorem State.answer_resets (r : Result) : (s.answer r).resets = s.resets := rfl
@[simp] theorem State.answer_schedule (r : Result) : (s.answer r).schedule = s.schedule := rfl

/-! emit -/

@[simp] theorem State.emit_phase (c : PhyCommand) : (s.emit c).phase = s.phase := rfl
@[simp] theorem State.emit_fail (c : PhyCommand) : (s.emit c).fail = s.fail := rfl
@[simp] theorem State.emit_killTime (c : PhyCommand) : (s.emit c).killTime = s.killTime := rfl
@[simp] theorem State.emit_lastRxTime (c : PhyCommand) : (s.emit c).lastRxTime = s.lastRxTime := rfl
@[simp] theorem State.emit_autostart (c : PhyCommand) : (s.emit c).autostart = s.autostart := rfl
@[simp] theorem State.emit_readTimeout (c : PhyCommand) : (s.emit c).readTimeout = s.readTimeout := rfl
@[simp] theorem State.emit_txbuf (c : PhyCommand) : (s.emit c).txbuf = s.txbuf := rfl
@[simp] theorem State.emit_txlen (c : PhyCommand) : (s.emit c).txlen = s.txlen := rfl
@[simp] theorem State.emit_rxbuf (c : PhyCommand) : (s.emit c).rxbuf = s.rxbuf := rfl
@[simp] theorem State.emit_rxcount (c : PhyCommand) : (s.emit c).rxcount = s.rxcount := rfl
@[simp] theorem State.emit_rxtailCount (c : PhyCommand) : (s.emit c).rxtailCount = s.rxtailCount := rfl
@[simp] theorem State.emit_rxtailBits (c : PhyCommand) : (s.emit c).rxtailBits = s.rxtailBits := rfl
@[simp] theorem State.emit_txActive (c : PhyCommand) : (s.emit c).txActive = c.txActiveAfter s.txActive := rfl
@[simp] theorem State.emit_rxArmed (c : PhyCommand) : (s.emit c).rxArmed = c.rxArmedAfter s.rxArmed := rfl
@[simp] theorem State.emit_now (c : PhyCommand) : (s.emit c).now = s.now := rfl
@[simp] theorem State.emit_lineLow (c : PhyCommand) : (s.emit c).lineLow = s.lineLow := rfl
@[simp] theorem State.emit_resetAsserted (c : PhyCommand) : (s.emit c).resetAsserted = s.resetAsserted := rfl
@[simp] theorem State.emit_result (c : PhyCommand) : (s.emit c).result = s.result := rfl
@[simp] theorem State.emit_emitted (c : PhyCommand) : (s.emit c).emitted = some c := rfl
@[simp] theorem State.emit_phy (c : PhyCommand) : (s.emit c).phy = s.phy := rfl
@[simp] theorem State.emit_resets (c : PhyCommand) : (s.emit c).resets = s.resets := rfl
@[simp] theorem State.emit_schedule (c : PhyCommand) : (s.emit c).schedule = s.schedule := rfl

/-! setPhase -/

@[simp] theorem State.setPhase_phase (p : Phase) : (s.setPhase p).phase = p := rfl
@[simp] theorem State.setPhase_fail (p : Phase) : (s.setPhase p).fail = s.fail := rfl
@[simp] theorem State.setPhase_killTime (p : Phase) : (s.setPhase p).killTime = s.killTime := rfl
@[simp] theorem State.setPhase_lastRxTime (p : Phase) : (s.setPhase p).lastRxTime = s.lastRxTime := rfl
@[simp] theorem State.setPhase_autostart (p : Phase) : (s.setPhase p).autostart = s.autostart := rfl
@[simp] theorem State.setPhase_readTimeout (p : Phase) : (s.setPhase p).readTimeout = s.readTimeout := rfl
@[simp] theorem State.setPhase_txbuf (p : Phase) : (s.setPhase p).txbuf = s.txbuf := rfl
@[simp] theorem State.setPhase_txlen (p : Phase) : (s.setPhase p).txlen = s.txlen := rfl
@[simp] theorem State.setPhase_rxbuf (p : Phase) : (s.setPhase p).rxbuf = s.rxbuf := rfl
@[simp] theorem State.setPhase_rxcount (p : Phase) : (s.setPhase p).rxcount = s.rxcount := rfl
@[simp] theorem State.setPhase_rxtailCount (p : Phase) : (s.setPhase p).rxtailCount = s.rxtailCount := rfl
@[simp] theorem State.setPhase_rxtailBits (p : Phase) : (s.setPhase p).rxtailBits = s.rxtailBits := rfl
@[simp] theorem State.setPhase_txActive (p : Phase) : (s.setPhase p).txActive = s.txActive := rfl
@[simp] theorem State.setPhase_rxArmed (p : Phase) : (s.setPhase p).rxArmed = s.rxArmed := rfl
@[simp] theorem State.setPhase_now (p : Phase) : (s.setPhase p).now = s.now := rfl
@[simp] theorem State.setPhase_lineLow (p : Phase) : (s.setPhase p).lineLow = s.lineLow := rfl
@[simp] theorem State.setPhase_resetAsserted (p : Phase) : (s.setPhase p).resetAsserted = s.resetAsserted :=
  rfl
@[simp] theorem State.setPhase_result (p : Phase) : (s.setPhase p).result = s.result := rfl
@[simp] theorem State.setPhase_emitted (p : Phase) : (s.setPhase p).emitted = s.emitted := rfl
@[simp] theorem State.setPhase_phy (p : Phase) : (s.setPhase p).phy = s.phy := rfl
@[simp] theorem State.setPhase_resets (p : Phase) : (s.setPhase p).resets = s.resets := rfl
@[simp] theorem State.setPhase_schedule (p : Phase) : (s.setPhase p).schedule = s.schedule := rfl

/-! clearReceive -/

@[simp] theorem State.clearReceive_phase : s.clearReceive.phase = s.phase := rfl
@[simp] theorem State.clearReceive_fail : s.clearReceive.fail = s.fail := rfl
@[simp] theorem State.clearReceive_killTime : s.clearReceive.killTime = s.killTime := rfl
@[simp] theorem State.clearReceive_lastRxTime : s.clearReceive.lastRxTime = s.lastRxTime := rfl
@[simp] theorem State.clearReceive_autostart : s.clearReceive.autostart = s.autostart := rfl
@[simp] theorem State.clearReceive_readTimeout : s.clearReceive.readTimeout = s.readTimeout := rfl
@[simp] theorem State.clearReceive_txbuf : s.clearReceive.txbuf = s.txbuf := rfl
@[simp] theorem State.clearReceive_txlen : s.clearReceive.txlen = s.txlen := rfl
@[simp] theorem State.clearReceive_rxbuf : s.clearReceive.rxbuf = s.rxbuf := rfl
@[simp] theorem State.clearReceive_rxcount : s.clearReceive.rxcount = 0 := rfl
@[simp] theorem State.clearReceive_rxtailCount : s.clearReceive.rxtailCount = 0 := rfl
@[simp] theorem State.clearReceive_rxtailBits : s.clearReceive.rxtailBits = 0 := rfl
@[simp] theorem State.clearReceive_txActive : s.clearReceive.txActive = s.txActive := rfl
@[simp] theorem State.clearReceive_rxArmed : s.clearReceive.rxArmed = s.rxArmed := rfl
@[simp] theorem State.clearReceive_now : s.clearReceive.now = s.now := rfl
@[simp] theorem State.clearReceive_lineLow : s.clearReceive.lineLow = s.lineLow := rfl
@[simp] theorem State.clearReceive_resetAsserted : s.clearReceive.resetAsserted = s.resetAsserted := rfl
@[simp] theorem State.clearReceive_result : s.clearReceive.result = s.result := rfl
@[simp] theorem State.clearReceive_emitted : s.clearReceive.emitted = s.emitted := rfl
@[simp] theorem State.clearReceive_phy : s.clearReceive.phy = s.phy := rfl
@[simp] theorem State.clearReceive_resets : s.clearReceive.resets = s.resets := rfl
@[simp] theorem State.clearReceive_schedule : s.clearReceive.schedule = s.schedule := rfl

/-! phyFollows: the PHY alone -/

@[simp] theorem State.phyFollows_phase (e : Option Instr) : (s.phyFollows e).phase = s.phase := rfl
@[simp] theorem State.phyFollows_fail (e : Option Instr) : (s.phyFollows e).fail = s.fail := rfl
@[simp] theorem State.phyFollows_killTime (e : Option Instr) : (s.phyFollows e).killTime = s.killTime := rfl
@[simp] theorem State.phyFollows_lastRxTime (e : Option Instr) : (s.phyFollows e).lastRxTime = s.lastRxTime := rfl
@[simp] theorem State.phyFollows_autostart (e : Option Instr) : (s.phyFollows e).autostart = s.autostart := rfl
@[simp] theorem State.phyFollows_readTimeout (e : Option Instr) : (s.phyFollows e).readTimeout = s.readTimeout := rfl
@[simp] theorem State.phyFollows_txbuf (e : Option Instr) : (s.phyFollows e).txbuf = s.txbuf := rfl
@[simp] theorem State.phyFollows_txlen (e : Option Instr) : (s.phyFollows e).txlen = s.txlen := rfl
@[simp] theorem State.phyFollows_rxbuf (e : Option Instr) : (s.phyFollows e).rxbuf = s.rxbuf := rfl
@[simp] theorem State.phyFollows_rxcount (e : Option Instr) : (s.phyFollows e).rxcount = s.rxcount := rfl
@[simp] theorem State.phyFollows_rxtailCount (e : Option Instr) : (s.phyFollows e).rxtailCount = s.rxtailCount := rfl
@[simp] theorem State.phyFollows_rxtailBits (e : Option Instr) : (s.phyFollows e).rxtailBits = s.rxtailBits := rfl
@[simp] theorem State.phyFollows_txActive (e : Option Instr) : (s.phyFollows e).txActive = s.txActive := rfl
@[simp] theorem State.phyFollows_rxArmed (e : Option Instr) : (s.phyFollows e).rxArmed = s.rxArmed := rfl
@[simp] theorem State.phyFollows_now (e : Option Instr) : (s.phyFollows e).now = s.now := rfl
@[simp] theorem State.phyFollows_lineLow (e : Option Instr) : (s.phyFollows e).lineLow = s.lineLow := rfl
@[simp] theorem State.phyFollows_resetAsserted (e : Option Instr) :
    (s.phyFollows e).resetAsserted = s.resetAsserted := rfl
@[simp] theorem State.phyFollows_result (e : Option Instr) : (s.phyFollows e).result = s.result := rfl
@[simp] theorem State.phyFollows_emitted (e : Option Instr) : (s.phyFollows e).emitted = s.emitted := rfl
@[simp] theorem State.phyFollows_phy (e : Option Instr) : (s.phyFollows e).phy = s.phy.after e s.emitted := rfl
@[simp] theorem State.phyFollows_resets (e : Option Instr) : (s.phyFollows e).resets = s.resets := rfl
@[simp] theorem State.phyFollows_schedule (e : Option Instr) : (s.phyFollows e).schedule = s.schedule := rfl

/-! Whole updates. -/


@[simp] theorem State.setBuffer_txbuf_eq (m : Memory) : s.setBuffer .txbuf m = { s with txbuf := m } := rfl
@[simp] theorem State.setBuffer_rxbuf_eq (m : Memory) : s.setBuffer .rxbuf m = { s with rxbuf := m } := rfl
@[simp] theorem State.atReset_txbuf (cfg : Params) : s.atReset cfg .txbuf = cfg.txbufAtReset s.resets := rfl
@[simp] theorem State.atReset_rxbuf (cfg : Params) : s.atReset cfg .rxbuf = cfg.rxbufAtReset s.resets := rfl
@[simp] theorem State.word_txbuf (cfg : Params) (i : Nat) :
    s.word cfg .txbuf i = s.txbuf.read (cfg.txbufAtReset s.resets) i := rfl
@[simp] theorem State.word_rxbuf (cfg : Params) (i : Nat) :
    s.word cfg .rxbuf i = s.rxbuf.read (cfg.rxbufAtReset s.resets) i := rfl
@[simp] theorem State.canonical_txbuf (cfg : Params) :
    s.canonical cfg .txbuf = s.txbuf.wf (cfg.txbufAtReset s.resets) := rfl
@[simp] theorem State.canonical_rxbuf (cfg : Params) :
    s.canonical cfg .rxbuf = s.rxbuf.wf (cfg.rxbufAtReset s.resets) := rfl
@[simp] theorem State.buffer_txbuf : s.buffer .txbuf = s.txbuf := rfl
@[simp] theorem State.buffer_rxbuf : s.buffer .rxbuf = s.rxbuf := rfl
@[simp] theorem PhyCommand.txActiveAfter_txStart (image : List Word) (v : Bool) :
    (PhyCommand.txStart image).txActiveAfter v = true := rfl
@[simp] theorem PhyCommand.txActiveAfter_rxArm (v : Bool) : PhyCommand.rxArm.txActiveAfter v = v := rfl
@[simp] theorem PhyCommand.txActiveAfter_abort (v : Bool) : PhyCommand.abort.txActiveAfter v = false := rfl
@[simp] theorem PhyCommand.rxArmedAfter_txStart (image : List Word) (v : Bool) :
    (PhyCommand.txStart image).rxArmedAfter v = v := rfl
@[simp] theorem PhyCommand.rxArmedAfter_rxArm (v : Bool) : PhyCommand.rxArm.rxArmedAfter v = true := rfl
@[simp] theorem PhyCommand.rxArmedAfter_abort (v : Bool) : PhyCommand.abort.rxArmedAfter v = false := rfl

@[simp] theorem Phy.after_none_none (p : Phy) : p.after none none = p := rfl
@[simp] theorem Phy.after_txStart (p : Phy) (e : Option Instr) (image : List Word) :
    p.after e (some (.txStart image)) = ⟨.sending image, p.operation + 1⟩ := rfl
@[simp] theorem Phy.after_rxArm (p : Phy) (e : Option Instr) :
    p.after e (some .rxArm) = ⟨.armed, p.operation + 1⟩ := rfl
@[simp] theorem Phy.after_abort (p : Phy) (e : Option Instr) : p.after e (some .abort) = ⟨.idle, p.operation⟩ := rfl

end Sys2Proof.Machine
end

