-- ==== Sys2Proof/Laws/Ops.lean ====
section
/-! SUPPORT. What each shared operation of Machine/Ops.lean can do, said once. -/

namespace Sys2Proof.Machine

/-! Outcomes. -/

@[simp] theorem settle_ok (t : State) : settle (.ok t) = .next t := rfl
@[simp] theorem settle_error (f : Fault) : settle (.error f) = .fault f := rfl

/-- A settled step goes on exactly when its body met no fault. -/
theorem settle_eq_next {x : Except Fault State} {t : State} : settle x = .next t ↔ x = .ok t := by
  cases x <;> simp [settle]

theorem ifTyped_of_true {ok : Bool} (h : ok = true) (run : Host.Outcome State Fault Refusal) (s : State) :
    ifTyped ok run s = run := by simp [ifTyped, h]

theorem ifTyped_of_false {ok : Bool} (h : ok = false) (run : Host.Outcome State Fault Refusal) (s : State) :
    ifTyped ok run s = returnOnly .refused s := by simp [ifTyped, h]

/-- A step that only returns a value always goes on, and changes the two outputs alone. -/
theorem returnOnly_eq (r : Result) (s : State) :
    returnOnly r s = .next { s with result := some r, emitted := none } := rfl

/-- An ignored event changes the two outputs alone. -/
theorem ignoreEvent_eq (s : State) : ignoreEvent s = .next { s with result := none, emitted := none } := rfl

/-! Buffers. -/

theorem State.setBuffer_setBuffer (s : State) (b : BufferName) (m m' : Memory) :
    (s.setBuffer b m).setBuffer b m' = s.setBuffer b m' := by cases b <;> rfl

theorem State.buffer_setBuffer (s : State) (b : BufferName) (m : Memory) :
    (s.setBuffer b m).buffer b = m := by cases b <;> rfl

theorem State.setBuffer_buffer (s : State) (b : BufferName) : s.setBuffer b (s.buffer b) = s := by
  cases b <;> rfl

@[simp] theorem State.atReset_setBuffer (cfg : Params) (s : State) (b c : BufferName) (m : Memory) :
    (s.setBuffer b m).atReset cfg c = s.atReset cfg c := by cases b <;> cases c <;> rfl

/-- A read answers exactly when the index is inside the buffer, with the word the buffer holds there. -/
theorem memRead_eq_ok {cfg : Params} {b : BufferName} {i : Nat} {s : State} {w : Word} :
    memRead cfg b i s = .ok w ↔ i < bufferSize cfg b ∧ s.word cfg b i = w := by
  unfold memRead
  split <;> rename_i hi <;> simp [hi]

/-- A write inside the buffer replaces that buffer's storage and nothing else. -/
theorem memWrite_eq_ok {cfg : Params} {b : BufferName} {i : Nat} {v : Word} {s t : State} :
    memWrite cfg b i v s = .ok t ↔
      i < bufferSize cfg b ∧ t = s.setBuffer b ((s.buffer b).write (s.atReset cfg b) i v) := by
  unfold memWrite
  split <;> rename_i hi <;> simp [hi, eq_comm]

/-- A run of writes that fits replaces that buffer's storage alone, keeps its form and its bounds, and afterwards
each index reads as the word written there, or as before. -/
theorem memWriteRange_spec {cfg : Params} {b : BufferName} (vs : List Word) (i : Nat) (s : State)
    (hfit : i + vs.length ≤ bufferSize cfg b) (hwf : s.canonical cfg b = true) :
    ∃ m : Memory, memWriteRange cfg b i vs s = .ok (s.setBuffer b m) ∧ m.wf (s.atReset cfg b) = true ∧
      ((s.buffer b).within (bufferSize cfg b) = true → m.within (bufferSize cfg b) = true) ∧
      ∀ j, m.read (s.atReset cfg b) j =
        if i ≤ j ∧ j < i + vs.length then vs.getD (j - i) 0 else s.word cfg b j := by
  induction vs generalizing i s with
  | nil =>
    refine ⟨s.buffer b, by simp [memWriteRange, State.setBuffer_buffer], hwf, id, fun j => ?_⟩
    rw [if_neg]
    · rfl
    · simp only [List.length_nil]; omega
  | cons v vs ih =>
    simp only [List.length_cons] at hfit
    have hi : i < bufferSize cfg b := by omega
    have hw : memWrite cfg b i v s = _ := memWrite_eq_ok.2 ⟨hi, rfl⟩
    obtain ⟨m, hm, hmwf, hin, hread⟩ := ih (i + 1)
      (s.setBuffer b ((s.buffer b).write (s.atReset cfg b) i v)) (by omega) (by
        simp only [State.canonical, State.buffer_setBuffer, State.atReset_setBuffer]
        exact Memory.wf_write i v hwf)
    simp only [State.buffer_setBuffer, State.atReset_setBuffer, State.word] at hmwf hin hread
    refine ⟨m, ?_, hmwf, fun h => hin (Memory.within_write v hi h), fun j => ?_⟩
    · simp only [memWriteRange, hw, hm, State.setBuffer_setBuffer]
    · rw [hread j, Memory.read_write hwf, List.length_cons]
      by_cases hj : j = i
      · subst hj; simp
      · by_cases h1 : i + 1 ≤ j ∧ j < i + 1 + vs.length
        · rw [if_pos h1, if_pos (by omega), show j - i = (j - (i + 1)) + 1 by omega, List.getD_cons_succ]
        · rw [if_neg h1, if_neg hj, if_neg (by omega)]; rfl

/-- A run of writes that goes on has replaced that buffer's storage alone. -/
theorem memWriteRange_frame {cfg : Params} {b : BufferName} {vs : List Word} {i : Nat} {s t : State}
    (h : memWriteRange cfg b i vs s = .ok t) :
    ∃ m : Memory, t = s.setBuffer b m ∧ (s.canonical cfg b = true → m.wf (s.atReset cfg b) = true) := by
  induction vs generalizing i s with
  | nil =>
    simp only [memWriteRange, Except.ok.injEq] at h
    subst h; exact ⟨_, (State.setBuffer_buffer ..).symm, id⟩
  | cons v vs ih =>
    unfold memWriteRange at h
    split at h
    · cases h
    · rename_i s' hs'
      obtain ⟨_, rfl⟩ := memWrite_eq_ok.1 hs'
      obtain ⟨m, rfl, hm⟩ := ih h
      simp only [State.canonical, State.buffer_setBuffer, State.atReset_setBuffer] at hm
      exact ⟨m, State.setBuffer_setBuffer .., fun hw => hm (Memory.wf_write i v hw)⟩

/-- A run of reads that fits answers the words the buffer holds there. -/
theorem memReadRange_fits {cfg : Params} {b : BufferName} {s : State} (n i : Nat)
    (hfit : i + n ≤ bufferSize cfg b) :
    memReadRange cfg b s i n = .ok ((List.range' i n).map (s.word cfg b)) := by
  induction n generalizing i with
  | zero => rfl
  | succ n ih =>
    rw [memReadRange, memRead_eq_ok.2 ⟨by omega, rfl⟩, ih (i + 1) (by omega)]
    rfl

/-- A list that says each word a buffer holds from its start is what a run of reads answers. -/
theorem memReadRange_of_words {cfg : Params} {b : BufferName} {s : State} {ws : List Word}
    (hfit : ws.length ≤ bufferSize cfg b)
    (h : ∀ k, k < ws.length → ws[k]? = some (s.word cfg b k)) :
    memReadRange cfg b s 0 ws.length = .ok ws := by
  rw [memReadRange_fits _ _ (by omega)]
  refine congrArg _ (List.ext_getElem? fun k => ?_)
  by_cases hk : k < ws.length
  · rw [h k hk]; simp [hk]
  · simp [hk]

/-! The exchange. -/

/-- The words of a transmit image (R84). -/
@[simp] theorem txImage_length (p : Packet) : (txImage p).length = p.payload.length + 3 := by
  simp [txImage]

/-- A `WRITE` body over a buffer in canonical form completes for every Packet; this is the state it leaves. -/
theorem beginWrite_spec (cfg : Params) (p : Packet) (a : Bool) (t : Timeout) (s : State)
    (hp : p.payload.length ≤ 255) (hwf : s.canonical cfg .txbuf = true) :
    ∃ m : Memory,
      beginWrite cfg p a t s = .ok { s with
        txbuf := m, txlen := BitVec.ofNat 9 (p.payload.length + 3), autostart := a, readTimeout := t,
        rxcount := 0, rxtailCount := 0, rxtailBits := 0, fail := .none,
        killTime := s.now + writeTimeoutUs cfg p.payload.length, phase := .writeInProgress,
        emitted := some (.txStart (txImage p)), txActive := true, result := some (.bit true) } ∧
      m.wf (s.atReset cfg .txbuf) = true ∧ (s.txbuf.within 258 = true → m.within 258 = true) ∧
      ∀ j, m.read (s.atReset cfg .txbuf) j =
        if j < p.payload.length + 3 then (txImage p).getD j 0 else s.word cfg .txbuf j := by
  obtain ⟨m, hm, hmwf, hin, hread⟩ := memWriteRange_spec (cfg := cfg) (b := .txbuf) (txImage p) 0 s
    (by simp [bufferSize]; omega) hwf
  refine ⟨m, ?_, hmwf, hin, fun j => ?_⟩
  · simp only [beginWrite, hm]; rfl
  · simpa using hread j

/-- What a `WRITE` body that goes on leaves, whatever the buffer held. -/
theorem beginWrite_frame {cfg : Params} {p : Packet} {a : Bool} {t : Timeout} {s u : State}
    (h : beginWrite cfg p a t s = .ok u) :
    ∃ m : Memory, (s.canonical cfg .txbuf = true → m.wf (s.atReset cfg .txbuf) = true) ∧ u = { s with
      txbuf := m, txlen := BitVec.ofNat 9 (p.payload.length + 3), autostart := a, readTimeout := t,
      rxcount := 0, rxtailCount := 0, rxtailBits := 0, fail := .none,
      killTime := s.now + writeTimeoutUs cfg p.payload.length, phase := .writeInProgress,
      emitted := some (.txStart (txImage p)), txActive := true, result := some (.bit true) } := by
  unfold beginWrite at h
  split at h
  · cases h
  · rename_i s' hs'
    obtain ⟨m, rfl, hm⟩ := memWriteRange_frame hs'
    cases h
    exact ⟨m, hm, rfl⟩

/-- What a finished receive is resolved to, once its words are read (R168). -/
def verdict (tailCount : BitVec 5) (tailBits : Word) (ws : List Word) : Phase × FailureReason :=
  match ws with
  | [] => (.readFailed, .missingData)
  | frameWord :: _ =>
    if ws.length < declaredLength frameWord + 1 then (.readFailed, .missingData)
    else if tailCount ≠ 8 then (.readFailed, .crcInvalid)
    else if checkByte ws ≠ byte0 tailBits then (.readFailed, .crcInvalid)
    else (.readComplete, .none)

/-- `Validate()` over words that can be read. -/
theorem validate_of_words {cfg : Params} {s : State} {ws : List Word} (hl : ws.length = s.rxcount)
    (h : memReadRange cfg .rxbuf s 0 s.rxcount = .ok ws) :
    validate cfg s = .ok (verdict s.rxtailCount s.rxtailBits ws) := by
  cases ws with
  | nil =>
    have h0 : s.rxcount = 0 := by simpa using hl.symm
    simp [validate, verdict, h0]
  | cons w ws =>
    obtain ⟨n, hn⟩ : ∃ n, s.rxcount = n + 1 := ⟨ws.length, by simpa using hl.symm⟩
    have hread : memRead cfg .rxbuf 0 s = .ok w := by
      rw [hn, memReadRange] at h
      split at h
      · cases h
      · rename_i v hv
        split at h <;> cases h
        exact hv
    unfold validate
    rw [if_neg (by omega), hread]
    rw [← hl] at h ⊢
    simp only [h, verdict]
    split_ifs <;> rfl

/-- The `READ_COMPLETE` case over words that can be read: the words are given out exactly when they validate. -/
theorem resolveReceive_of_words {cfg : Params} {s : State} {ws : List Word} (hl : ws.length = s.rxcount)
    (h : memReadRange cfg .rxbuf s 0 s.rxcount = .ok ws) :
    resolveReceive cfg s = .ok (consume
      (if (verdict s.rxtailCount s.rxtailBits ws).1 = .readComplete
        then ⟨.readComplete, .none, ws, s.rxcount⟩
        else emptyStatus .readFailed (verdict s.rxtailCount s.rxtailBits ws).2) s) := by
  unfold resolveReceive
  rw [validate_of_words hl h]
  simp only [h]
  split_ifs <;> rfl

/-- Validation never answers `TIMEOUT`. -/
theorem validate_reason {cfg : Params} {s : State} {q : Phase} {r : FailureReason}
    (h : validate cfg s = .ok (q, r)) : r ≠ .timeout := by
  unfold validate at h
  split at h
  · cases h; decide
  · split at h
    · cases h
    · split at h
      · cases h; decide
      · split at h
        · cases h; decide
        · split at h
          · cases h
          · split at h <;> cases h <;> decide

/-- The `READ_COMPLETE` case, when it goes on, consumes the exchange with a Status that is no timeout. -/
theorem resolveReceive_frame {cfg : Params} {s t : State} (h : resolveReceive cfg s = .ok t) :
    ∃ st : Status, st.failureReason ≠ .timeout ∧ t = consume st s := by
  unfold resolveReceive at h
  split at h
  · cases h
  · rename_i q r hv
    split at h
    · split at h
      · cases h
      · cases h; exact ⟨_, by simp, rfl⟩
    · cases h; exact ⟨_, validate_reason hv, rfl⟩

/-- An accepted word that finds room is stored at `RXCOUNT` (R196). -/
theorem receiveWord_store {cfg : Params} {w : Word} {s : State} (h : s.rxcount < cfg.rxCapacityWords) :
    receiveWord cfg w s = .ok { s with
      rxbuf := s.rxbuf.write (s.atReset cfg .rxbuf) s.rxcount w, rxcount := s.rxcount + 1, lastRxTime := s.now } := by
  have hw : memWrite cfg .rxbuf s.rxcount w s = _ := memWrite_eq_ok.2 ⟨by simpa [bufferSize] using h, rfl⟩
  simp only [receiveWord, hw, if_neg (Nat.ne_of_lt h)]
  rfl

/-- A word that finds the buffer full is dropped and the overflow is stored (R196). -/
theorem receiveWord_overflow {cfg : Params} {w : Word} {s : State} (h : s.rxcount = cfg.rxCapacityWords) :
    receiveWord cfg w s = .ok (storeOverflow s) := by simp [receiveWord, h]

/-! The PHY. -/

/-- A step that goes on goes on with the PHY having seen it. -/
theorem followPhy_eq_next {e : Option Instr} {x : Host.Outcome State Fault Refusal} {t : State} :
    followPhy e x = .next t ↔ ∃ u, x = .next u ∧ t = u.phyFollows e := by
  cases x <;> simp [followPhy, eq_comm]

/-- A PHY operation that is finished stays so, whatever the block sends the PHY and whatever event of the operation in
progress it delivers. -/
theorem Phy.finished_after {p : Phy} {op : Nat} {e : Option Instr} (h : p.finished op)
    (he : ∀ i, e = some i → p.activity.delivers i = true) (c : Option PhyCommand) :
    (p.after e c).finished op := by
  have hidle : p.activity = .idle → p.activity.afterEvent e = .idle := by
    intro ha
    rcases e with _ | i
    · exact ha
    · have := he i rfl; simp [ha, PhyActivity.delivers] at this
  unfold Phy.finished at h ⊢
  rcases c with _ | _ | _ | _
  · exact h.imp id fun h => ⟨h.1, hidle h.2⟩
  all_goals simp only [Phy.after_txStart, Phy.after_rxArm, Phy.after_abort]
  · left; omega
  · left; omega
  · simp; omega

/-- A finished operation may deliver nothing. -/
theorem Phy.not_mayDeliver_of_finished {p : Phy} {op : Nat} (h : p.finished op) (i : Instr) :
    p.mayDeliver op i = false := by
  rcases h with h | ⟨h, ha⟩
  · simp [Phy.mayDeliver, Nat.ne_of_lt h]
  · simp [Phy.mayDeliver, ha, PhyActivity.delivers]

end Sys2Proof.Machine
end

