-- ==== Sys2Proof/Laws/Exec.lean ====
section
/-! SUPPORT. Everything one operation or event can do, said once: the cases of a next state of `exec`. -/

namespace Sys2Proof.Machine

/-- The next states `exec i s` can answer, case by case, with what each case needs. -/
inductive ExecCase (s : State) : Instr → State → Prop where
  /-- Only a value is returned: codec operations, `IS_BUSY`, refusals, `false`, and polls that change nothing. -/
  | returned (i : Instr) (r : Result) : r ≠ .bit true ∨ (∀ p a t, i ≠ .write p a t) ∧ (∀ t, i ≠ .startRead t) →
      i.port = .polling ∨ ¬ i.WellFormed →
      ExecCase s i { s with result := some r, emitted := none }
  /-- An event is ignored. -/
  | ignored (i : Instr) : i.port = .event → takingPhase i ≠ some s.phase → ExecCase s i { s with result := none, emitted := none }
  | wrote (p : Packet) (a : Bool) (o : Timeout) (m : Memory) :
      p.payload.length ≤ 255 → s.phase = .idle → s.lineLow = false → 
      (s.canonical Config.params .txbuf = true → m.wf (s.atReset Config.params .txbuf) = true) →
      ExecCase s (.write p a o) { s with
        txbuf := m, txlen := BitVec.ofNat 9 (p.payload.length + 3), autostart := a, readTimeout := o,
        rxcount := 0, rxtailCount := 0, rxtailBits := 0, fail := .none,
        killTime := s.now + writeTimeoutUs Config.params p.payload.length, phase := .writeInProgress,
        emitted := some (.txStart (txImage p)), txActive := true, result := some (.bit true) }
  | listened (o : Timeout) : s.phase = .idle →
      ExecCase s (.startRead o) { s with
        rxcount := 0, rxtailCount := 0, rxtailBits := 0, fail := .none, killTime := s.now + o.toNat,
        phase := .waitingForReadStart, rxArmed := true, emitted := some .rxArm, result := some (.bit true) }
  | timedOut (failed : Phase) :
      ((s.phase = .writeInProgress ∨ s.phase = .waitingForReadStart) ∧ s.killTime < s.now) ∨
      (s.phase = .readInProgress ∧
        (s.killTime < s.now ∨ s.lastRxTime + Config.params.interWordReadTimeoutUs < s.now)) →
      ExecCase s .processEvents { s with
        phase := .idle, txActive := false, rxArmed := false, emitted := some .abort
        result := some (.status ⟨failed, .timeout, [], 0⟩) }
  | consumed (st : Status) : s.phase = .writeComplete ∨ s.phase = .readComplete →
      ExecCase s .processEvents { s with phase := .idle, result := some (.status st), emitted := none }
  | overflowConsumed (st : Status) : s.phase = .readFailed → s.fail = .bufferOverflow →
      ExecCase s .processEvents { s with
        phase := .idle, fail := .none, result := some (.status st), emitted := none }
  | sentThenListening : s.phase = .writeInProgress → s.autostart = true →
      ExecCase s .txDone { s with
        rxcount := 0, rxtailCount := 0, rxtailBits := 0, killTime := s.now + s.readTimeout.toNat
        phase := .waitingForReadStart, txActive := false, rxArmed := true, emitted := some .rxArm
        result := none }
  | sent : s.phase = .writeInProgress → s.autostart = false →
      ExecCase s .txDone { s with
        phase := .writeComplete, txActive := false, result := none, emitted := none }
  | started : s.phase = .waitingForReadStart →
      ExecCase s .rxStart { s with
        lastRxTime := s.now, killTime := s.now + maxReadUs Config.params, phase := .readInProgress
        result := none, emitted := none }
  | stored (w : Word) : s.phase = .readInProgress → s.rxcount < Config.params.rxCapacityWords →
      ExecCase s (.rxWord w) { s with
        rxbuf := s.rxbuf.write (s.atReset Config.params .rxbuf) s.rxcount w, rxcount := s.rxcount + 1, lastRxTime := s.now
        result := none, emitted := none }
  | overflowed (w : Word) : s.phase = .readInProgress → s.rxcount = Config.params.rxCapacityWords →
      ExecCase s (.rxWord w) { s with
        fail := .bufferOverflow, phase := .readFailed, txActive := false, rxArmed := false
        emitted := some .abort, result := none }
  | ended (tc : Nat) (tb : Word) : tc ≤ 31 → s.phase = .readInProgress →
      ExecCase s (.rxEnd tc tb) { s with
        rxtailCount := BitVec.ofNat 5 tc, rxtailBits := tb, phase := .readComplete, rxArmed := false
        result := none, emitted := none }

/-- A step that only returns a value is the first case, for an operation of the polling port other than `WRITE` and
`START_READ`. -/
theorem ExecCase.ofReturnOnly {s t : State} {i : Instr} {r : Result}
    (hi : (∀ p a o, i ≠ .write p a o) ∧ ∀ o, i ≠ .startRead o) (hp : i.port = .polling)
    (h : returnOnly r s = .next t) : ExecCase s i t := by
  cases h; exact .returned i r (.inr hi) (.inl hp)

/-- The same under an operand check. -/
theorem ExecCase.ofIfTyped {s t : State} {i : Instr} {run : Host.Outcome State Fault Refusal}
    (hrun : run = .next t → ExecCase s i t) (h : ifTyped i.wellFormed run s = .next t) : ExecCase s i t := by
  unfold ifTyped at h
  split at h
  · exact hrun h
  · rename_i hwf; cases h; exact .returned i .refused (.inl (by decide)) (.inr hwf)

/-- `WRITE` and its cases. -/
theorem execWrite_cases {p : Packet} {a : Bool} {o : Timeout} {s t : State}
    (h : execWrite p a o s = .next t) : ExecCase s (.write p a o) t := by
  unfold execWrite runWrite ifTyped at h
  split at h
  · rename_i hp
    split at h
    · cases h; exact .returned _ _ (.inl (by decide)) (.inl (Instr.port_eq _))
    · rename_i hb
      split at h
      · cases h; exact .returned _ _ (.inl (by decide)) (.inl (Instr.port_eq _))
      · rename_i hl
        obtain ⟨m, hm, rfl⟩ := beginWrite_frame (settle_eq_next.1 h)
        exact .wrote p a o m (by simpa [Packet.wellFormed] using hp) (by simpa [busy] using hb)
          (by simpa using hl) hm
  · cases h; exact .returned _ _ (.inl (by decide)) (.inl (Instr.port_eq _))

/-- `START_READ` and its cases. -/
theorem execStartRead_cases {o : Timeout} {s t : State} (h : execStartRead o s = .next t) :
    ExecCase s (.startRead o) t := by
  unfold execStartRead at h
  split at h
  · cases h; exact .returned _ _ (.inl (by decide)) (.inl (Instr.port_eq _))
  · rename_i hb
    cases h; exact .listened o (by simpa [busy] using hb)

/-- `PROCESS_EVENTS` and its cases. -/
theorem execProcessEvents_cases {s t : State} (h : execProcessEvents s = .next t) :
    ExecCase s .processEvents t := by
  have h := settle_eq_next.1 (show settle (pollExchange Config.params s.clearOutputs) = .next t from h)
  have keep : ∀ r, ExecCase s .processEvents { s with result := some r, emitted := none } :=
    fun r => .returned _ r (.inr ⟨by simp, by simp⟩) (.inl (Instr.port_eq _))
  unfold pollExchange at h
  split at h <;> rename_i hp <;> simp only [State.clearOutputs_phase] at hp
  · cases h; exact keep _
  · cases h
    unfold pollInProgress
    split
    · rename_i hk
      exact .timedOut .writeFailed (.inl ⟨.inl hp, by simpa [killTimePassed] using hk⟩)
    · exact keep _
  · cases h
    unfold pollInProgress
    split
    · rename_i hk
      exact .timedOut .readFailed (.inl ⟨.inr hp, by simpa [killTimePassed] using hk⟩)
    · exact keep _
  · cases h
    unfold pollInProgress
    split
    · rename_i hk
      exact .timedOut .readFailed (.inr ⟨hp, by simpa [killTimePassed, wordGapPassed] using hk⟩)
    · exact keep _
  · cases h; exact .consumed _ (.inl hp)
  · split at h
    · rename_i hf
      cases h; exact .overflowConsumed _ hp (by simpa using hf)
    · cases h
  · obtain ⟨st, _, rfl⟩ := resolveReceive_frame h
    exact .consumed st (.inr hp)
  · cases h

/-- `TX_DONE` and its cases. -/
theorem execTxDone_cases {s t : State} (h : execTxDone s = .next t) : ExecCase s .txDone t := by
  unfold execTxDone at h
  split at h
  · rename_i hp
    cases h
    unfold finishWrite
    by_cases ha : s.autostart = true
    · rw [if_pos (by simpa using ha)]; exact .sentThenListening hp ha
    · rw [if_neg (by simpa using ha)]; exact .sent hp (by simpa using ha)
  · rename_i hp; cases h; exact .ignored _ (Instr.port_eq _) (by simpa [takingPhase, eq_comm] using hp)

/-- `RX_START` and its cases. -/
theorem execRxStart_cases {s t : State} (h : execRxStart s = .next t) : ExecCase s .rxStart t := by
  unfold execRxStart runRxStart at h
  split at h
  · rename_i hp; cases h; exact .started hp
  · rename_i hp; cases h; exact .ignored _ (Instr.port_eq _) (by simpa [takingPhase, eq_comm] using hp)

/-- `RX_WORD` and its cases. -/
theorem execRxWord_cases {w : Word} {s t : State} (h : execRxWord w s = .next t) :
    ExecCase s (.rxWord w) t := by
  unfold execRxWord runRxWord at h
  split at h
  · rename_i hp
    have h := settle_eq_next.1 h
    by_cases hc : s.rxcount = Config.params.rxCapacityWords
    · rw [receiveWord_overflow (by simpa using hc)] at h
      cases h; exact .overflowed w hp hc
    · by_cases hlt : s.rxcount < Config.params.rxCapacityWords
      · rw [receiveWord_store (by simpa using hlt)] at h
        cases h; exact .stored w hp hlt
      · unfold receiveWord memWrite at h
        rw [if_neg (by simpa using hc), if_neg (by simpa [bufferSize] using hlt)] at h
        cases h
  · rename_i hp; cases h; exact .ignored _ (Instr.port_eq _) (by simpa [takingPhase, eq_comm] using hp)

/-- `RX_END` and its cases. -/
theorem execRxEnd_cases {tc : Nat} {tb : Word} {s t : State} (h : execRxEnd tc tb s = .next t) :
    ExecCase s (.rxEnd tc tb) t := by
  unfold execRxEnd ifTyped at h
  split at h
  · rename_i htc
    split at h
    · rename_i hp; cases h; exact .ended tc tb (by simpa [tailCountOk] using htc) hp
    · rename_i hp; cases h; exact .ignored _ (Instr.port_eq _) (by simpa [takingPhase, eq_comm] using hp)
  · rename_i htc
    cases h; exact .returned _ _ (.inl (by decide)) (.inr (by simpa [Instr.WellFormed, Instr.wellFormed] using htc))

/-- Everything one operation or event can do. -/
theorem exec_cases {i : Instr} {s t : State} (h : exec i s = .next t) : ExecCase s i t := by
  cases i with
  | write p a o => exact execWrite_cases h
  | startRead o => exact execStartRead_cases h
  | processEvents => exact execProcessEvents_cases h
  | isBusy => exact .ofReturnOnly ⟨by simp, by simp⟩ (Instr.port_eq _) h
  | framePack => exact .ofReturnOnly ⟨by simp, by simp⟩ (Instr.port_eq _) h
  | frameUnpack => exact .ofReturnOnly ⟨by simp, by simp⟩ (Instr.port_eq _) h
  | pktValid => exact .ofIfTyped (.ofReturnOnly ⟨by simp, by simp⟩ (Instr.port_eq _)) h
  | crc8 => exact .ofReturnOnly ⟨by simp, by simp⟩ (Instr.port_eq _) h
  | wordFlip => exact .ofReturnOnly ⟨by simp, by simp⟩ (Instr.port_eq _) h
  | payloadSet => exact .ofIfTyped (.ofReturnOnly ⟨by simp, by simp⟩ (Instr.port_eq _)) h
  | payloadSetFlipped => exact .ofIfTyped (.ofReturnOnly ⟨by simp, by simp⟩ (Instr.port_eq _)) h
  | payloadAppend => exact .ofIfTyped (.ofReturnOnly ⟨by simp, by simp⟩ (Instr.port_eq _)) h
  | payloadAppendFlipped => exact .ofIfTyped (.ofReturnOnly ⟨by simp, by simp⟩ (Instr.port_eq _)) h
  | totalBits => exact .ofIfTyped (.ofReturnOnly ⟨by simp, by simp⟩ (Instr.port_eq _)) h
  | txTimeNs => exact .ofIfTyped (.ofReturnOnly ⟨by simp, by simp⟩ (Instr.port_eq _)) h
  | txDone => exact execTxDone_cases h
  | rxStart => exact execRxStart_cases h
  | rxWord w => exact execRxWord_cases h
  | rxEnd tc tb => exact execRxEnd_cases h

/-- Everything one step can do: nothing; one operation or event, which the PHY then has seen; a lost or refused
descriptor, or reset asserted; time; or the release of reset. -/
theorem step_cases {s t : State} (h : step s = .next t) :
    (s.schedule = [] ∧ t = s) ∨
    ∃ m rest, s.schedule = m :: rest ∧
      ((∃ i low u, i.port = .polling ∧ exec i { s with schedule := rest, lineLow := low } = .next u ∧
          t = u.phyFollows none) ∨
       (∃ i u, i.port = .event ∧ i.WellFormed ∧ s.phy.activity.delivers i = true ∧
          exec i { s with schedule := rest } = .next u ∧ t = u.phyFollows (some i)) ∨
       (∃ r e low, t = { s with
          schedule := rest, lineLow := low, result := r, emitted := none, resetAsserted := e }) ∨
       (∃ us, t = { s with schedule := rest, now := s.now + us, result := none, emitted := none }) ∨
       t = { State.reset with
          now := s.now, lineLow := s.lineLow, phy := ⟨.idle, s.phy.operation⟩, resets := s.resets + 1
          schedule := rest }) := by
  unfold step takeNext at h
  split at h
  · rename_i hs; cases h; exact .inl ⟨hs, rfl⟩
  · rename_i m rest hs
    refine .inr ⟨m, rest, hs, ?_⟩
    cases m with
    | time us => cases h; exact .inr (.inr (.inr (.inl ⟨us, rfl⟩)))
    | poll low d =>
      simp only [takeMove] at h
      split at h
      · cases h; exact .inr (.inr (.inl ⟨none, s.resetAsserted, low, rfl⟩))
      · unfold takePolling at h
        split at h
        · rename_i i hi
          obtain ⟨u, hu, rfl⟩ := followPhy_eq_next.1 h
          exact .inl ⟨i, low, u, (decode_port hi).1, hu, rfl⟩
        · cases h; exact .inr (.inr (.inl ⟨(some .refused), s.resetAsserted, low, rfl⟩))
    | event op d =>
      simp only [takeMove] at h
      split at h
      · cases h; exact .inr (.inr (.inl ⟨none, s.resetAsserted, s.lineLow, rfl⟩))
      · unfold takeEvent at h
        split at h
        · rename_i i hi
          split at h
          · rename_i hd
            obtain ⟨u, hu, rfl⟩ := followPhy_eq_next.1 h
            simp only [Phy.mayDeliver, Bool.and_eq_true] at hd
            exact .inr (.inl ⟨i, u, (decode_port hi).1, (decode_port hi).2, hd.2, hu, rfl⟩)
          · cases h; exact .inr (.inr (.inl ⟨none, s.resetAsserted, s.lineLow, rfl⟩))
        · cases h; exact .inr (.inr (.inl ⟨(some .refused), s.resetAsserted, s.lineLow, rfl⟩))
    | resetAssert => cases h; exact .inr (.inr (.inl ⟨none, true, s.lineLow, rfl⟩))
    | resetRelease =>
      simp only [takeMove] at h
      split at h
      · cases h; exact .inr (.inr (.inr (.inr rfl)))
      · cases h; exact .inr (.inr (.inl ⟨none, s.resetAsserted, s.lineLow, rfl⟩))

/-- No operation or event touches the PHY agent, the reset count, the schedule or the inputs. -/
theorem exec_frame {i : Instr} {s t : State} (h : exec i s = .next t) :
    t.phy = s.phy ∧ t.resets = s.resets ∧ t.schedule = s.schedule ∧ t.now = s.now ∧ t.lineLow = s.lineLow ∧
      t.resetAsserted = s.resetAsserted := by
  cases exec_cases h <;> exact ⟨rfl, rfl, rfl, rfl, rfl, rfl⟩

end Sys2Proof.Machine
end

