-- ==== Sys2Proof/Laws/PerInstr.lean ====
section
/-! SUPPORT. Statements made per instruction: one lemma for each constructor of Instr. -/

namespace Sys2Proof.Laws.EncodedAsListed

/-- The instruction's descriptor carries its operation's code and exactly the operands that read back as the
instruction. -/
def Statement (i : Instr) : Prop :=
  (encode i).op = i.opName.code ∧ readOperands i.opName (encode i).operands = some i

theorem write (p : Packet) (a : Bool) (t : Timeout) : Statement (.write p a t) := ⟨rfl, rfl⟩
theorem startRead (t : Timeout) : Statement (.startRead t) := ⟨rfl, rfl⟩
theorem processEvents : Statement .processEvents := ⟨rfl, rfl⟩
theorem isBusy : Statement .isBusy := ⟨rfl, rfl⟩
theorem framePack (c r s l : Byte) : Statement (.framePack c r s l) := ⟨rfl, rfl⟩
theorem frameUnpack (w : Word) : Statement (.frameUnpack w) := ⟨rfl, rfl⟩
theorem pktValid (p : Packet) : Statement (.pktValid p) := ⟨rfl, rfl⟩
theorem crc8 (ws : List Word) : Statement (.crc8 ws) := ⟨rfl, rfl⟩
theorem wordFlip (w : Word) : Statement (.wordFlip w) := ⟨rfl, rfl⟩
theorem payloadSet (p : Packet) (ws : List Word) : Statement (.payloadSet p ws) := ⟨rfl, rfl⟩
theorem payloadSetFlipped (p : Packet) (ws : List Word) : Statement (.payloadSetFlipped p ws) := ⟨rfl, rfl⟩
theorem payloadAppend (p : Packet) (ws : List Word) : Statement (.payloadAppend p ws) := ⟨rfl, rfl⟩
theorem payloadAppendFlipped (p : Packet) (ws : List Word) : Statement (.payloadAppendFlipped p ws) := ⟨rfl, rfl⟩
theorem totalBits (n : Nat) : Statement (.totalBits n) := ⟨rfl, rfl⟩
theorem txTimeNs (n : Nat) : Statement (.txTimeNs n) := ⟨rfl, rfl⟩
theorem txDone : Statement .txDone := ⟨rfl, rfl⟩
theorem rxStart : Statement .rxStart := ⟨rfl, rfl⟩
theorem rxWord (w : Word) : Statement (.rxWord w) := ⟨rfl, rfl⟩
theorem rxEnd (tc : Nat) (tb : Word) : Statement (.rxEnd tc tb) := ⟨rfl, rfl⟩

end Sys2Proof.Laws.EncodedAsListed
end

