-- ==== Sys2Proof/Machine/Assembler.lean ====
section
/-! DEFINITION. Program lines as schedules: the times and the line verdict a line of spec/30_encoding.md R99 carries,
and a reception as a sequence of events (R86). -/

namespace Sys2Proof.Machine

/-- A line of R99: its `@t` time if it has one, the operation, whether it ends in `!low`, and, for an event, the PHY
operation it belongs to, which the syntax leaves to the reader (log entry 10). -/
structure Line where
  time : Option Nat
  instr : Instr
  low : Bool
  op : Nat
  deriving DecidableEq, Repr

/-- The moves of a line when the time input reads `now`: the time source brings the time to `@t`, then the
operation is issued. -/
def Line.moves (now : Nat) (l : Line) : List Move :=
  match l.time with
  | some t => [.time (t - now), moveOfDescriptor l.low l.op (encode l.instr)]
  | none => [moveOfDescriptor l.low l.op (encode l.instr)]

/-- The time input after a line. -/
def Line.timeAfter (now : Nat) (l : Line) : Nat := max now (l.time.getD now)

/-- The schedule of a program. -/
def assemble : Nat → List Line → List Move
  | _, [] => []
  | now, l :: rest => l.moves now ++ assemble (l.timeAfter now) rest

/-- The PHY's moves for a packet on the line in its operation `op`: `RX_START`, then what the receiver delivers for the
bits (R86, R203 item 2). -/
def receptionMoves (op : Nat) (bits : List Bool) : List Move :=
  (Instr.rxStart :: receiveEvents bits).map fun i => Move.event op (encode i)

end Sys2Proof.Machine
end

