-- ==== Sys2Proof/Tests/Slice0.lean ====
section
/-! SUPPORT. The model's own tests: the checks of WellFormed, every operation's word, the vectors of
spec/95_test_vectors.md (named S1 to S7, V1 to V13 there), and for each statement with hypotheses a state and operands
that meet them. -/

namespace Sys2Proof.Tests

open Sys2Proof.Machine

/-! ## Helpers -/

/-- The state a step goes on to; the reset state where it stops. -/
def after : Host.Outcome State Fault Refusal → State
  | .next s => s
  | .fault _ => State.reset
  | .refused _ => State.reset

/-- What a step that goes on returns on the polling port. -/
def returned : Host.Outcome State Fault Refusal → Option Result
  | .next s => s.result
  | .fault _ => none
  | .refused _ => none

/-- The reset state at a time and in a phase. -/
def at_ (now : Nat) (phase : Phase) : State := { State.reset with now := now, phase := phase }

/-- A finished receive of some words with a tail. -/
def received (ws : Memory) (tailCount : BitVec 5) (tailBits : Word) : State :=
  { State.reset with
    phase := .readComplete, rxbuf := ws, rxcount := ws.length, rxtailCount := tailCount, rxtailBits := tailBits }

/-- `{0x01,0x20,0x00; []}`, the packet of S5. -/
def emptyPacket : Packet := packetLit 0x01 0x20 0x00 []

/-- A packet with a payload of so many words, length field 0. -/
def packetOf (n : Nat) : Packet := ⟨⟨0x01, 0x20, 0x00, 0x00⟩, List.replicate n 0⟩

@[simp] theorem packetOf_length (n : Nat) : (packetOf n).payload.length = n := List.length_replicate

@[simp] theorem packetOf_wellFormed (n : Nat) : (packetOf n).wellFormed = decide (n ≤ 255) := by
  simp [Packet.wellFormed]

/-! ## WellFormed refuses each ill-formed operand (R32, R92) -/

theorem test_wf_write : ¬ (Instr.write (packetOf 256) false 0).WellFormed := by
  simp [Instr.WellFormed, Instr.wellFormed]
theorem test_wf_pktValid : ¬ (Instr.pktValid (packetOf 256)).WellFormed := by
  simp [Instr.WellFormed, Instr.wellFormed]
theorem test_wf_payloadSet : ¬ (Instr.payloadSet (packetOf 256) []).WellFormed := by
  simp [Instr.WellFormed, Instr.wellFormed]
theorem test_wf_payloadSetFlipped : ¬ (Instr.payloadSetFlipped (packetOf 256) []).WellFormed := by
  simp [Instr.WellFormed, Instr.wellFormed]
theorem test_wf_payloadAppend : ¬ (Instr.payloadAppend (packetOf 256) []).WellFormed := by
  simp [Instr.WellFormed, Instr.wellFormed]
theorem test_wf_payloadAppendFlipped : ¬ (Instr.payloadAppendFlipped (packetOf 256) []).WellFormed := by
  simp [Instr.WellFormed, Instr.wellFormed]
theorem test_wf_totalBits : ¬ (Instr.totalBits 256).WellFormed := by decide
theorem test_wf_txTimeNs : ¬ (Instr.txTimeNs 256).WellFormed := by decide
theorem test_wf_rxEnd : ¬ (Instr.rxEnd 32 0).WellFormed := by decide
theorem test_wf_boundaries : (Instr.write (packetOf 255) false 0).WellFormed ∧
    (Instr.totalBits 255).WellFormed ∧ (Instr.rxEnd 31 0).WellFormed := by 
  simp [Instr.WellFormed, Instr.wellFormed, payloadCountOk, tailCountOk]

/-! ## Decoding: the OP byte of every operation, written bit by bit from R96 -/

theorem test_decode_write : decode .polling ⟨0b00000001#8, [.packet emptyPacket, .bit true, .u32 1000]⟩ =
    .ok (.write emptyPacket true 1000) := by rfl
theorem test_decode_startRead : decode .polling ⟨0b00000010#8, [.u32 0x1388]⟩ = .ok (.startRead 5000) := by rfl
theorem test_decode_processEvents : decode .polling ⟨0b00000011#8, []⟩ = .ok .processEvents := by rfl
theorem test_decode_isBusy : decode .polling ⟨0b00000100#8, []⟩ = .ok .isBusy := by rfl
theorem test_decode_framePack : decode .polling ⟨0b00010000#8, [.u8 1, .u8 2, .u8 3, .u8 4]⟩ =
    .ok (.framePack 1 2 3 4) := by rfl
theorem test_decode_frameUnpack : decode .polling ⟨0b00010001#8, [.u32 7]⟩ = .ok (.frameUnpack 7) := by rfl
theorem test_decode_pktValid : decode .polling ⟨0b00010010#8, [.packet emptyPacket]⟩ =
    .ok (.pktValid emptyPacket) := by rfl
theorem test_decode_crc8 : decode .polling ⟨0b00010011#8, [.words [1, 2]]⟩ = .ok (.crc8 [1, 2]) := by rfl
theorem test_decode_wordFlip : decode .polling ⟨0b00010100#8, [.u32 7]⟩ = .ok (.wordFlip 7) := by rfl
theorem test_decode_payloadSet : decode .polling ⟨0b00010101#8, [.packet emptyPacket, .words [1]]⟩ =
    .ok (.payloadSet emptyPacket [1]) := by rfl
theorem test_decode_payloadSetFlipped : decode .polling ⟨0b00010110#8, [.packet emptyPacket, .words [1]]⟩ =
    .ok (.payloadSetFlipped emptyPacket [1]) := by rfl
theorem test_decode_payloadAppend : decode .polling ⟨0b00010111#8, [.packet emptyPacket, .words [1]]⟩ =
    .ok (.payloadAppend emptyPacket [1]) := by rfl
theorem test_decode_payloadAppendFlipped :
    decode .polling ⟨0b00011000#8, [.packet emptyPacket, .words [1]]⟩ =
      .ok (.payloadAppendFlipped emptyPacket [1]) := by rfl
theorem test_decode_totalBits : decode .polling ⟨0b00011001#8, [.nat 255]⟩ = .ok (.totalBits 255) := by rfl
theorem test_decode_txTimeNs : decode .polling ⟨0b00011010#8, [.nat 255]⟩ = .ok (.txTimeNs 255) := by rfl
theorem test_decode_txDone : decode .event ⟨0b10000000#8, []⟩ = .ok .txDone := by rfl
theorem test_decode_rxStart : decode .event ⟨0b10000001#8, []⟩ = .ok .rxStart := by rfl
theorem test_decode_rxWord : decode .event ⟨0b10000010#8, [.u32 0x08002003]⟩ = .ok (.rxWord 0x08002003) := by rfl
theorem test_decode_rxEnd : decode .event ⟨0b10000011#8, [.nat 8, .u32 0x2A]⟩ = .ok (.rxEnd 8 0x2A) := by rfl

/-- V13: the reserved `OP` values named there are refused on both ports. -/
theorem test_decode_reserved : ∀ op ∈ [0x00, 0x05, 0x0F, 0x1B, 0x7F, 0x84, 0xFF],
    decode .polling ⟨op, []⟩ = .error (.reservedOp op) ∧ decode .event ⟨op, []⟩ = .error (.reservedOp op) := by
  intro op h
  simp only [List.mem_cons, List.not_mem_nil, or_false] at h
  rcases h with rfl | rfl | rfl | rfl | rfl | rfl | rfl <;> exact ⟨rfl, rfl⟩

/-- V13: an operation on the other port. -/
theorem test_decode_wrong_port : decode .polling ⟨0x80, []⟩ = .error (.wrongPort 0x80) ∧
    decode .event ⟨0x01, [.packet emptyPacket, .bit false, .u32 0]⟩ = .error (.wrongPort 0x01) := ⟨rfl, rfl⟩

/-- Operands of the wrong types, and operands outside their types. -/
theorem test_decode_operands : decode .polling ⟨0x02, []⟩ = .error (.operandTypes .startRead) ∧
    decode .polling ⟨0x19, [.nat 256]⟩ = .error (.operandRange .totalBits) ∧
    decode .event ⟨0x83, [.nat 32, .u32 0]⟩ = .error (.operandRange .rxEnd) := ⟨rfl, rfl, rfl⟩

/-- A table row placed at reset is what the next step takes. -/
theorem test_withFetchWord_isBusy :
    returned (step (State.reset.withFetchWord 8 0x04)) = some (.bit false) := by decide
theorem test_withFetchWord_write :
    returned (step (State.reset.withFetchWord 8 0x01)) = some (.bit true) := by rfl

/-! ## Codec vectors -/

/-- S1. -/
theorem test_framePack : returned (exec (.framePack 0x0E 0x01 0x00 0x02) State.reset) =
    some (.word 0x0E010002) := by decide
/-- V1. -/
theorem test_frameUnpack : returned (exec (.frameUnpack 0x05002001) State.reset) =
    some (.frame ⟨0x05, 0x00, 0x20, 0x01⟩) := by decide
/-- S2. -/
theorem test_pktValid : [(⟨⟨0x09, 0x20, 0, 1⟩, [1]⟩ : Packet), ⟨⟨0xFF, 0x20, 0, 0⟩, []⟩,
    ⟨⟨0x09, 0x20, 0, 3⟩, [1, 2]⟩, ⟨⟨0xFE, 0x20, 0, 0⟩, []⟩].map (fun p => returned (exec (.pktValid p) State.reset)) =
      [true, false, false, true].map fun b => some (.bit b) := by decide
/-- V3. -/
theorem test_crc8 : returned (exec (.crc8 [0x0E010002, 0x00000008, 0x12345678]) State.reset) =
    some (.byte 0x0D) := by decide
/-- V3, the empty list. -/
theorem test_crc8_empty : returned (exec (.crc8 []) State.reset) = some (.byte 0) := by decide
/-- V4. -/
theorem test_wordFlip : returned (exec (.wordFlip 0x12345678) State.reset) = some (.word 0x78563412) := by decide
/-- V5. -/
theorem test_payloadSet : returned (exec (.payloadSet ⟨⟨0x09, 0x20, 0, 5⟩, [1]⟩ []) State.reset) =
    some (.packet true ⟨⟨0x09, 0x20, 0, 0⟩, []⟩) := by decide
/-- V5: 256 words leave the packet as it was. -/
theorem test_payloadSet_over : returned (exec (.payloadSet emptyPacket (packetOf 256).payload) State.reset) =
    some (.packet false emptyPacket) := by
  simp [exec, execPayloadSet, ifTyped, returnOnly, returned, payloadResult, State.answer, emptyPacket, packetLit,
    Packet.wellFormed]
/-- V5. -/
theorem test_payloadSetFlipped :
    returned (exec (.payloadSetFlipped ⟨⟨0x0C, 0x01, 0, 0⟩, []⟩ [0x12345678, 1]) State.reset) =
      some (.packet true ⟨⟨0x0C, 0x01, 0, 2⟩, [0x78563412, 0x01000000]⟩) := by decide
/-- V5. -/
theorem test_payloadAppend :
    returned (exec (.payloadAppend ⟨⟨0x09, 0x20, 0, 1⟩, [1]⟩ [0xAABBCCDD]) State.reset) =
      some (.packet true ⟨⟨0x09, 0x20, 0, 2⟩, [1, 0xAABBCCDD]⟩) := by decide
/-- V5: 200 words and 56 more do not fit. -/
theorem test_payloadAppend_over :
    returned (exec (.payloadAppend (packetOf 200) (List.replicate 56 0)) State.reset) =
      some (.packet false (packetOf 200)) := by
  simp [exec, execPayloadAppend, ifTyped, returnOnly, returned, payloadResult, State.answer]
/-- V5. -/
theorem test_payloadAppendFlipped :
    returned (exec (.payloadAppendFlipped ⟨⟨0x0C, 0x01, 0, 1⟩, [2]⟩ [0x11223344]) State.reset) =
      some (.packet true ⟨⟨0x0C, 0x01, 0, 2⟩, [2, 0x44332211]⟩) := by decide
/-- S6. -/
theorem test_totalBits : returned (exec (.totalBits 255) State.reset) = some (.word 8200) := by decide
/-- V6. -/
theorem test_totalBits_refused : returned (exec (.totalBits 256) State.reset) = some .refused := by decide
/-- S6, under TC; and V6, with one nanosecond a bit. -/
theorem test_txTimeNs : txTimeNs Config.tc 255 = 4100000 ∧
    txTimeNs { Config.tc with nsPerBitLessOne := 0 } 255 = 8200 := by decide
/-- S6: the write bound under TC; and MaxReadUs (R156). -/
theorem test_bounds : [0, 1, 2, 255].map (writeTimeoutUs Config.tc) = [24, 44, 63, 4920] ∧
    maxReadUs Config.tc = 4920 := by decide

/-! ## Image and wire vectors (V7) -/

/-- The length field is recomputed. -/
theorem test_txImage : txImage ⟨⟨0x09, 0x20, 0, 7⟩, [1]⟩ = [0x48, 0x09200001, 1, 0x29000000] := by decide
/-- The sentinel is sent unchecked. -/
theorem test_txImage_sentinel : txImage ⟨⟨0xFF, 0x20, 0, 0⟩, []⟩ = [0x28, 0xFF200000, 0xDF000000] := by decide
/-- The 40 bits of V7, first bit on the left. -/
theorem test_serialize : serialize [40, 0x01200000, 0x21000000] =
    [0,0,0,0,0,0,0,1, 0,0,1,0,0,0,0,0, 0,0,0,0,0,0,0,0, 0,0,0,0,0,0,0,0, 0,0,1,0,0,0,0,1].map (· == 1) := by decide
/-- The receive side of the same stream. -/
theorem test_receiveEvents : receiveEvents (serialize [40, 0x01200000, 0x21000000]) =
    [.rxWord 0x01200000, .rxEnd 8 0x21] := by decide

/-! ## Sequencer vectors, under TC -/

/-- V8, second row. -/
theorem test_write :
    let t := after (runWrite Config.tc (packetLit 0x09 0x20 0 [1]) true 1000 (at_ 100 .idle))
    t.phase = .writeInProgress ∧ t.killTime = 144 ∧ t.autostart = true ∧ t.readTimeout = 1000 ∧ t.txlen = 4 ∧
      t.txbuf = [(0, 0x48), (1, 0x09200001), (2, 1), (3, 0x29000000)] ∧
      t.emitted = some (.txStart [0x48, 0x09200001, 1, 0x29000000]) ∧ t.result = some (.bit true) := by decide
/-- V8: a line that is not quiet changes nothing. -/
theorem test_write_low : returned (runWrite Config.tc emptyPacket false 0 { at_ 100 .idle with lineLow := true }) =
    some (.bit false) := by decide
/-- V9. -/
theorem test_startRead :
    let t := after (exec (.startRead 0xFFFFFFFF) State.reset)
    t.phase = .waitingForReadStart ∧ t.killTime = 4294967295 ∧ t.emitted = some .rxArm := by decide
/-- V9: a busy block answers false. -/
theorem test_startRead_busy : returned (exec (.startRead 10) (at_ 0 .writeComplete)) = some (.bit false) := by decide
/-- V10: at the bound and one past it, for a write. -/
theorem test_poll_strict :
    returned (runProcessEvents Config.tc { at_ 124 .writeInProgress with killTime := 124 }) =
      some (.status ⟨.writeInProgress, .none, [], 0⟩) ∧
    returned (runProcessEvents Config.tc { at_ 125 .writeInProgress with killTime := 124 }) =
      some (.status ⟨.writeFailed, .timeout, [], 0⟩) := by decide
/-- V10: the words of an oversized receive, a wrong tail count, and too few words. -/
theorem test_poll_receive :
    returned (runProcessEvents Config.tc
      (received [(0, 0x07002001), (1, 0x11111111), (2, 0x22222222)] 8 0x26)) =
        some (.status ⟨.readComplete, .none, [0x07002001, 0x11111111, 0x22222222], 3⟩) ∧
    returned (runProcessEvents Config.tc (received [(0, 0x01200000)] 9 0x21)) =
      some (.status ⟨.readFailed, .crcInvalid, [], 0⟩) ∧
    returned (runProcessEvents Config.tc (received [(0, 0x08002002), (1, 1)] 8 0)) =
      some (.status ⟨.readFailed, .missingData, [], 0⟩) := by decide
/-- V11. -/
theorem test_isBusy : returned (exec .isBusy (at_ 0 .readFailed)) = some (.bit true) ∧
    returned (exec .isBusy State.reset) = some (.bit false) := by decide
/-- V12. -/
theorem test_txDone :
    let t := after (exec .txDone { at_ 120 .writeInProgress with autostart := true, readTimeout := 1000 })
    t.phase = .waitingForReadStart ∧ t.killTime = 1120 ∧ t.emitted = some .rxArm := by decide
/-- V12. -/
theorem test_rxStart :
    let t := after (runRxStart Config.tc (at_ 300 .waitingForReadStart))
    t.phase = .readInProgress ∧ t.lastRxTime = 300 ∧ t.killTime = 5220 := by decide
/-- V12. -/
theorem test_rxWord :
    let t := after (runRxWord Config.tc 0x05002001 (at_ 310 .readInProgress))
    t.rxbuf = [(0, 0x05002001)] ∧ t.rxcount = 1 ∧ t.lastRxTime = 310 := by decide
/-- V12: the word that finds the buffer full. -/
theorem test_rxWord_overflow :
    let t := after (runRxWord Config.tc 7 { at_ 310 .readInProgress with rxcount := 256 })
    t.fail = .bufferOverflow ∧ t.phase = .readFailed ∧ t.rxbuf = [] ∧ t.lastRxTime = 0 ∧
      t.emitted = some .abort := by decide
/-- V12. -/
theorem test_rxEnd :
    let t := after (exec (.rxEnd 8 0x25) (at_ 330 .readInProgress))
    t.phase = .readComplete ∧ t.rxtailCount = 8 ∧ t.rxtailBits = 0x25 := by decide
/-- V12. -/
theorem test_rxEnd_refused : returned (exec (.rxEnd 32 0) (at_ 330 .readInProgress)) = some .refused := by decide
/-- The first two lines of P8 as a schedule (R99). -/
theorem test_assemble : assemble 0 [⟨some 7, pseudoListen 5000, false, 0⟩, ⟨none, .rxStart, false, 1⟩] =
    [.time 7, .poll false ⟨0x02, [.u32 5000]⟩, .event 1 ⟨0x81, []⟩] := by decide

/-! ## Buffers after reset, and the PHY's duties -/

/-- R40, I1: after reset a word of TXBUF holds any value, and reading it is no fault; R61: beyond the buffer it is. -/
theorem test_memRead_reset : memRead Config.params .txbuf 257 State.reset = .ok (Config.params.txbufAtReset 0 257) ∧
    memRead Config.params .txbuf 258 State.reset = .error (.indexOutOfRange .txbuf 258) := ⟨rfl, rfl⟩
/-- A word written back to its value after reset is not listed. -/
theorem test_memory_canonical : Memory.write (fun _ => 9) [(0, 1), (2, 5)] 2 9 = [(0, 1)] ∧
    Memory.write (fun _ => 9) [(0, 1), (2, 5)] 1 7 = [(0, 1), (1, 7), (2, 5)] := by decide
/-- R207: a `TX_DONE` of the first operation, aborted, does not end the second; its own does. -/
theorem test_late_event :
    let s := { at_ 0 .writeInProgress with phy := ⟨.sending [], 2⟩ }
    (after (step { s with schedule := [.event 1 ⟨0x80, []⟩] })).phase = .writeInProgress ∧
    (after (step { s with schedule := [.event 2 ⟨0x80, []⟩] })).phase = .writeComplete ∧
    (after (step { s with schedule := [.event 2 ⟨0x80, []⟩] })).phy = ⟨.idle, 2⟩ := by decide
/-- V12: a stray event in IDLE changes nothing. -/
theorem test_stray_event : step { State.reset with schedule := [.event 0 ⟨0x81, []⟩] } = .next State.reset := by rfl
/-- R206: the PHY begins an operation at a `START_READ`. -/
theorem test_phy_follows :
    (after (step { State.reset with schedule := [.poll false ⟨0x02, [.u32 7]⟩] })).phy = ⟨.armed, 1⟩ := by decide
/-- A placed event is one the PHY may deliver. -/
theorem test_withFetchWord_rxWord : let s := { at_ 0 .readInProgress with rxcount := 0 }
    (after (step (s.withFetchWord 8 0x82))).rxcount = 1 := by rfl

/-! ## Witnesses: for each statement with hypotheses, a state and operands that meet them -/

theorem room : 1 ≤ Config.params.rxCapacityWords := Nat.le_add_left 1 _

theorem witness_DecodeOfEncode : (Instr.write (packetOf 255) true 0xFFFFFFFF).WellFormed ∧
    (Instr.totalBits 255).WellFormed ∧ (Instr.rxEnd 31 0xFFFFFFFF).WellFormed := by 
  simp [Instr.WellFormed, Instr.wellFormed, payloadCountOk, tailCountOk]

theorem witness_DecodedDescriptorIsEncoding :
    decode .event ⟨0x83, [.nat 31, .u32 5]⟩ = .ok (.rxEnd 31 5) := by rfl

/-- For OperationMapAsListed and every statement that asks only for a Packet of at most 255 words. -/
theorem witness_packet_of_255_words : (packetOf 255).payload.length ≤ 255 ∧ 255 ≤ 255 ∧ 31 ≤ 31 := by simp

/-- An ill-typed descriptor of each port is no operation's encoding. -/
theorem no_encoding_of_ill_typed (i : Instr) (hi : i.WellFormed) :
    encode i ≠ ⟨0x19, [.nat 256]⟩ ∧ encode i ≠ ⟨0x83, [.nat 32, .u32 0]⟩ := by
  constructor <;> cases i <;>
    simp_all [encode, Instr.WellFormed, Instr.wellFormed, payloadCountOk, tailCountOk] <;> omega

theorem witness_ReservedAndIllTypedRefused :
    State.reset.resetAsserted = false ∧
    (∀ d : Descriptor, ({ State.reset with schedule := [.poll true d] } : State).schedule = .poll true d :: [] ∧
      ({ State.reset with schedule := [.event 0 d] } : State).schedule = .event 0 d :: []) ∧
    (∀ op ∈ [0x00, 0x05, 0x0F, 0x1B, 0x7F, 0x84, 0xFF], let n := (BitVec.ofNat 8 op).toNat
      n = 0 ∨ (0x05 ≤ n ∧ n ≤ 0x0F) ∨ (0x1B ≤ n ∧ n ≤ 0x7F) ∨ (0x84 ≤ n ∧ n ≤ 0xFF)) ∧
    0x80 ≤ (0x80 : Byte).toNat ∧ (0x1A : Byte).toNat < 0x80 ∧
    (∀ i : Instr, i.WellFormed → encode i ≠ ⟨0x19, [.nat 256]⟩) ∧
    (∀ i : Instr, i.WellFormed → encode i ≠ ⟨0x83, [.nat 32, .u32 0]⟩) ∧
    ¬ (Instr.rxEnd 32 0).WellFormed :=
  ⟨rfl, fun _ => ⟨rfl, rfl⟩, by decide, by decide, by decide,
    fun i h => (no_encoding_of_ill_typed i h).1, fun i h => (no_encoding_of_ill_typed i h).2, by decide⟩

/-- The last clause of ReservedAndIllTypedRefused, at each bound. -/
theorem witness_IllTypedOperationRefused : ¬ (Instr.rxEnd 32 0).WellFormed ∧ ¬ (Instr.totalBits 256).WellFormed ∧
    ¬ (Instr.write (packetOf 256) false 0).WellFormed := by 
  simp [Instr.WellFormed, Instr.wellFormed, payloadCountOk, tailCountOk]

theorem witness_StepRunsDecodedOperation :
    State.reset.resetAsserted = false ∧
    ({ State.reset with schedule := [.poll true ⟨0x04, []⟩] } : State).schedule = .poll true ⟨0x04, []⟩ :: [] ∧
    decode .polling ⟨0x04, []⟩ = .ok .isBusy ∧
    ({ State.reset with schedule := [.event 1 ⟨0x80, []⟩] } : State).schedule = .event 1 ⟨0x80, []⟩ :: [] ∧
    decode .event ⟨0x80, []⟩ = .ok .txDone ∧
    (⟨.sending [], 1⟩ : Phy).mayDeliver 1 .txDone = true ∧ State.reset.phy.mayDeliver 1 .txDone = false :=
  ⟨rfl, rfl, rfl, rfl, rfl, rfl, rfl⟩

theorem witness_StepOfOtherMoves :
    ({ State.reset with schedule := [.time 0] } : State).schedule = .time 0 :: [] ∧
    ({ State.reset with schedule := [.resetAssert] } : State).schedule = .resetAssert :: [] ∧
    ({ State.reset with schedule := [.resetRelease] } : State).schedule = .resetRelease :: [] ∧
    State.reset.resetAsserted = false ∧ State.reset.schedule = [] := ⟨rfl, rfl, rfl, rfl, rfl⟩

theorem witness_ResetTakesNothingThenClears : ∀ m : Move, m = .poll true ⟨0x04, []⟩ ∨ m = .event 1 ⟨0x80, []⟩ ∨
    m = .resetRelease → ({ State.reset with resetAsserted := true, schedule := [m] } : State).resetAsserted = true ∧
      ({ State.reset with resetAsserted := true, schedule := [m] } : State).schedule = m :: [] :=
  fun _ _ => ⟨rfl, rfl⟩

theorem witness_TimeNeverGoesBack : ∃ t : State,
    Host.Core.run Sys2Proof.core 2 { State.reset with schedule := [.time 5, .time 0] } = .next t ∧ t.now = 5 :=
  ⟨_, rfl, rfl⟩

/-- An aborted operation, a later one in progress, and both ways to abort. -/
theorem witness_FinishedPhyOperationDeliversNothing :
    (⟨.idle, 1⟩ : Phy).finished 1 ∧ (⟨.armed, 2⟩ : Phy).finished 1 ∧
    (∃ t : State, Host.Core.run Sys2Proof.core 1
        { at_ 0 .idle with phy := ⟨.idle, 1⟩, schedule := [.poll false ⟨0x02, [.u32 7]⟩, .event 1 ⟨0x81, []⟩] } =
          .next t ∧ t.schedule = .event 1 ⟨0x81, []⟩ :: [] ∧ t.phase = .waitingForReadStart) ∧
    decode .event ⟨0x81, []⟩ = .ok .rxStart ∧
    (∃ s t : State, s.schedule ≠ [] ∧ step s = .next t ∧ t.emitted = some .abort) ∧
    ∃ s t : State, s.resetAsserted = true ∧ s.schedule = .resetRelease :: [] ∧ step s = .next t :=
  ⟨.inr ⟨rfl, rfl⟩, .inl (by decide), ⟨_, rfl, rfl, rfl⟩, rfl,
    ⟨{ at_ 1 .writeInProgress with schedule := [.poll false ⟨0x03, []⟩] }, _, by simp, rfl, rfl⟩,
    ⟨{ State.reset with resetAsserted := true, schedule := [.resetRelease] }, _, rfl, rfl, rfl⟩⟩

/-- For PayloadOperationsKeepHeader, whose last clause asks for a payload operation that succeeds. -/
theorem witness_PayloadOperationsKeepHeader : (packetOf 255).payload.length ≤ 255 ∧
    Instr.payloadAppendFlipped (packetOf 255) [] ∈ [Instr.payloadSet (packetOf 255) [],
      .payloadSetFlipped (packetOf 255) [], .payloadAppend (packetOf 255) [],
      .payloadAppendFlipped (packetOf 255) []] ∧
    returned (exec (.payloadSet (packetOf 255) []) State.reset) =
      some (.packet true { packetOf 255 with payload := [], length := 0 }) := by
  refine ⟨by simp, by simp, ?_⟩
  simp [exec, execPayloadSet, ifTyped, returnOnly, returned, payloadResult, withPayload, State.answer]

/-- For TotalBitsResult and TxTimeResult: both sides of the bound. -/
theorem witness_payload_counts : 255 ≤ 255 ∧ 255 < 256 := by decide

theorem witness_OnlyWhatSucceedsChangesState : ∃ t : State,
    exec (.write (packetOf 255) false 0) (at_ 0 .writeComplete) = .next t ∧ t.result ≠ some (.bit true) :=
  ⟨{ at_ 0 .writeComplete with result := some (.bit false) }, by
    simp [exec, execWrite, runWrite, ifTyped, busy, at_, returnOnly_eq, State.reset], by decide⟩

/-- The laws of R118: bit positions at their bounds, in one word and in two. -/
theorem witness_CheckByteLaws : [(1 : Word), 2].Perm [2, 1] ∧ 31 < 32 ∧
    (0 < 32 ∧ 24 < 32 ∧ 0 / 8 ≠ 24 / 8 ∧ 0 % 8 = 24 % 8) := ⟨.swap 2 1 [], by decide, by decide⟩

/-! Good states. -/

/-- The invariants of the reset state. -/
theorem reset_inv : Inv Config.params State.reset := by
  constructor <;> simp [State.reset, Memory.wf, Memory.risesFrom, Memory.differs, Memory.within]

/-- A good state in each stored phase but `READ_FAILED`. -/
def good (p : Phase) : State :=
  { State.reset with
    phase := p
    txActive := decide (p = .writeInProgress)
    rxArmed := decide (p = .waitingForReadStart ∨ p = .readInProgress) }

theorem good_inv (p : Phase) (hf : p ≠ .writeFailed) (hr : p ≠ .readFailed) : Inv Config.params (good p) := by
  constructor <;> simp [good, State.reset, Memory.wf, Memory.risesFrom, Memory.differs, Memory.within, hf, hr]

/-- A good state that holds an overflow. -/
def overflowed : State := { State.reset with phase := .readFailed, fail := .bufferOverflow }

theorem overflowed_inv : Inv Config.params overflowed := by
  constructor <;> simp [overflowed, State.reset, Memory.wf, Memory.risesFrom, Memory.differs, Memory.within]

/-- The time input and the schedule may be anything in a good state that is not reading. -/
theorem inv_later {s : State} (h : Inv Config.params s) (n : Nat) (ms : List Move) (hn : s.now ≤ n) :
    Inv Config.params { s with now := n, schedule := ms } := by
  obtain ⟨a, b, c, d, e, f, g, h, j, k, l, m⟩ := h
  exact ⟨a, b, c, d.imp id fun ⟨a, b, c, d⟩ => ⟨a, b, c, d⟩, fun x => (e x).trans hn, f, g, h, j, k, l, m⟩

/-- A good state whose receive buffer is full. -/
theorem full_inv : ∃ s : State, Inv Config.params s ∧ s.phase = .readInProgress ∧
    s.rxcount = Config.params.rxCapacityWords := by
  refine ⟨{ good .readInProgress with rxcount := Config.params.rxCapacityWords }, ?_, rfl, rfl⟩
  obtain ⟨a, b, c, d, e, f, g, h, j, k, l, o⟩ := good_inv .readInProgress (by decide) (by decide)
  exact ⟨a, b, Nat.le_refl _, d.imp id fun ⟨a, b, c, d⟩ => ⟨a, b, c, d⟩, e, f, g, h, j, k, l, o⟩

theorem witness_SentPacketIsReceivedWhole : emptyPacket.payload.length ≤ 255 ∧
    Inv Config.params (good .waitingForReadStart) ∧ (good .waitingForReadStart).phase = .waitingForReadStart ∧
    (good .waitingForReadStart).rxcount = 0 ∧
    emptyPacket.payload.length + 1 ≤ Config.params.rxCapacityWords :=
  ⟨by decide, good_inv _ (by decide) (by decide), rfl, rfl, room⟩

theorem witness_WriteOutcome : 255 < (packetOf 256).payload.length ∧ (packetOf 255).payload.length ≤ 255 ∧
    (at_ 0 .readFailed).phase ≠ .idle ∧ ({ State.reset with lineLow := true } : State).lineLow = true ∧
    State.reset.phase = .idle ∧ State.reset.lineLow = false ∧ State.reset.canonical Config.params .txbuf = true := by
  simp [at_, State.reset]

theorem witness_BufferedImageIsSent : State.reset.canonical Config.params .txbuf = true ∧ ∃ t : State,
    exec (.write emptyPacket false 0) State.reset = .next t ∧ t.result = some (.bit true) :=
  ⟨rfl, _, rfl, rfl⟩

/-- For StartReadOutcome, PollIdle, PollWriteComplete, PollOverflow, UnreachablePhasesFault and IsBusyResult. -/
theorem witness_phases : State.reset.phase = .idle ∧ (at_ 0 .writeComplete).phase = .writeComplete ∧
    (at_ 0 .writeComplete).phase ≠ .idle ∧ overflowed.phase = .readFailed ∧ overflowed.fail = .bufferOverflow ∧
    (at_ 0 .writeFailed).phase = .writeFailed ∧ (at_ 0 .readFailed).fail ≠ .bufferOverflow ∧
    State.reset.lineLow = false ∧ State.reset.canonical Config.params .txbuf = true := by
  simp [at_, overflowed, State.reset]

/-- At both bounds exactly, in each phase in progress. -/
theorem witness_PollInProgressWritesNothing :
    ((at_ 0 .writeInProgress).phase = .writeInProgress ∧ (at_ 0 .writeInProgress).now ≤ 0) ∧
    (at_ 0 .waitingForReadStart).phase = .waitingForReadStart ∧
    ∃ s : State, s.phase = .readInProgress ∧ s.now = s.killTime ∧
      s.now = s.lastRxTime + Config.params.interWordReadTimeoutUs :=
  ⟨by decide, rfl, { State.reset with
    phase := .readInProgress, killTime := 310 + Config.params.interWordReadTimeoutUs
    lastRxTime := 310, now := 310 + Config.params.interWordReadTimeoutUs }, rfl, rfl, rfl⟩

/-- One past the bound, in each phase in progress, and for a read past each bound alone. -/
theorem witness_PollPastBoundTimesOut :
    ((at_ 1 .writeInProgress).phase = .writeInProgress ∧ (at_ 1 .writeInProgress).killTime < 1) ∧
    (at_ 1 .waitingForReadStart).phase = .waitingForReadStart ∧
    (∃ s : State, s.phase = .readInProgress ∧ s.killTime < s.now ∧
      ¬ s.lastRxTime + Config.params.interWordReadTimeoutUs < s.now) ∧
    (∃ s : State, s.phase = .readInProgress ∧ ¬ s.killTime < s.now ∧
      s.lastRxTime + Config.params.interWordReadTimeoutUs < s.now) :=
  ⟨by decide, rfl,
    ⟨{ at_ 1 .readInProgress with lastRxTime := 1 }, rfl, by decide, Nat.not_lt.2 (Nat.le_add_right 1 _)⟩,
    ⟨{ at_ (Config.params.interWordReadTimeoutUs + 1) .readInProgress with
        killTime := Config.params.interWordReadTimeoutUs + 1 }, rfl, Nat.lt_irrefl _,
      by simp [at_, State.reset]⟩⟩

/-- No word, and one word; the four outcomes are told apart by the words and the tail. -/
theorem witness_PollValidatesReceive :
    ((received [] 0 0).phase = .readComplete ∧ (received [] 0 0).rxcount = ([] : List Word).length) ∧
    (received [(0, 0x01200000)] 8 0x21).rxcount = [(0x01200000 : Word)].length ∧
    [(0x01200000 : Word)].length ≤ Config.params.rxCapacityWords ∧
    (∀ k, k < 1 → [(0x01200000 : Word)][k]? = some ((received [(0, 0x01200000)] 8 0x21).word Config.params .rxbuf k)) :=
  ⟨⟨rfl, rfl⟩, rfl, room, fun k hk => by obtain rfl : k = 0 := by omega
                                         rfl⟩

/-- P4: three words where the frame declares one. -/
theorem witness_OversizedReceiveAccepted :
    let s := received [(0, 0x07002001), (1, 0x11111111), (2, 0x22222222)] 8 0x26
    let ws : List Word := [0x07002001, 0x11111111, 0x22222222]
    s.phase = .readComplete ∧ s.rxcount = ws.length ∧ ws.length ≤ Config.tc.rxCapacityWords ∧
      (∀ k, k < ws.length → ws[k]? = some (s.word Config.tc .rxbuf k)) ∧
      ((ws.headD 0).extractLsb' 0 8).toNat + 1 < ws.length ∧ s.rxtailCount = 8 := by decide

theorem witness_TxDoneOutcome : State.reset.phase ≠ .writeInProgress ∧
    (at_ 0 .writeInProgress).phase = .writeInProgress ∧ (at_ 0 .writeInProgress).autostart = false ∧
    ({ at_ 0 .writeInProgress with autostart := true } : State).autostart = true := by decide

theorem witness_RxStartOutcome : State.reset.phase ≠ .waitingForReadStart ∧
    (at_ 0 .waitingForReadStart).phase = .waitingForReadStart := by decide

/-- The empty buffer and the full one. -/
theorem witness_RxWordOutcome : State.reset.phase ≠ .readInProgress ∧
    ((at_ 0 .readInProgress).phase = .readInProgress ∧
      (at_ 0 .readInProgress).rxcount < Config.params.rxCapacityWords ∧ 
      (at_ 0 .readInProgress).canonical Config.params .rxbuf = true) ∧
    ∃ s : State, s.phase = .readInProgress ∧ s.rxcount = Config.params.rxCapacityWords :=
  ⟨by decide, ⟨rfl, room, rfl⟩, full_inv.imp fun _ h => h.2⟩

theorem witness_RxEndOutcome : 31 < 32 ∧ 31 ≤ 31 ∧ State.reset.phase ≠ .readInProgress ∧
    (at_ 0 .readInProgress).phase = .readInProgress := by decide

theorem witness_EventsIgnoredOutsideTheirPhase :
    (PhyActivity.receiving.fits (at_ 0 .readInProgress).phase ∧
      (⟨.receiving, 1⟩ : Phy).mayDeliver 1 (.rxEnd 31 0) = true) ∧ (Instr.rxEnd 31 0).WellFormed ∧
    (Instr.rxEnd 31 0).port = .event ∧ takingPhase (.rxEnd 31 0) ≠ some State.reset.phase :=
  ⟨⟨rfl, rfl⟩, by decide, by decide, by decide⟩

theorem witness_InvariantKept : ∃ s t : State, Inv Config.params s ∧
    s.phy.activity.fits s.phase ∧ step s = .next t ∧ t.phase = .writeInProgress :=
  ⟨_, _, inv_later reset_inv 7 [.poll false (encode (.write emptyPacket true 5))] (by decide),
    by simp [State.reset, PhyActivity.fits], rfl, rfl⟩

theorem witness_GoodStatesNeverStop :
    Inv Config.params { good .readComplete with now := 0, schedule := [.poll false ⟨0x03, []⟩] } :=
  inv_later (good_inv .readComplete (by decide) (by decide)) 0 _ (by decide)

theorem witness_BuffersStayCanonical : ∃ s t : State,
    s.canonical Config.params .txbuf = true ∧ s.canonical Config.params .rxbuf = true ∧
    step s = .next t ∧ t.phase ≠ s.phase :=
  ⟨{ State.reset with schedule := [.poll false (encode (.write emptyPacket true 5))] }, _, rfl, rfl, rfl,
    by decide⟩

/-- Every row of the table of R171 is met from a good state. -/
theorem witness_PhaseTransitionsAsListed :
    (∃ t : State, exec (.startRead 5) State.reset = .next t ∧ t.phase ≠ State.reset.phase) ∧
    (Instr.write (packetOf 255) true 0).WellFormed ∧ (Instr.rxEnd 31 0).WellFormed ∧
    (∀ q, q ≠ Phase.writeFailed → q ≠ .readFailed → Inv Config.params (good q)) ∧ Inv Config.params overflowed ∧
    PhaseStep Config.params State.reset (.write (packetOf 255) true 0) .writeInProgress ∧
    PhaseStep Config.params State.reset (.startRead 0) .waitingForReadStart ∧
    PhaseStep Config.params (good .writeInProgress) .txDone .writeComplete ∧
    PhaseStep Config.params { good .writeInProgress with autostart := true } .txDone .waitingForReadStart ∧
    (∀ q, q = Phase.writeInProgress ∨ q = .waitingForReadStart ∨ q = .readInProgress →
      PhaseStep Config.params { good q with now := 1, schedule := [] } .processEvents .idle) ∧
    PhaseStep Config.params (good .waitingForReadStart) .rxStart .readInProgress ∧
    (∃ s : State, Inv Config.params s ∧ PhaseStep Config.params s (.rxWord 0) .readFailed) ∧
    PhaseStep Config.params (good .readInProgress) (.rxEnd 31 0) .readComplete ∧
    PhaseStep Config.params (good .writeComplete) .processEvents .idle ∧
    PhaseStep Config.params (good .readComplete) .processEvents .idle ∧
    PhaseStep Config.params overflowed .processEvents .idle := by
  refine ⟨⟨_, rfl, by decide⟩, by simp [Instr.WellFormed, Instr.wellFormed], by decide, good_inv, overflowed_inv, .write _ _ _ rfl rfl,
    .startRead _ rfl, .txDone rfl rfl, .txDoneRead rfl rfl, ?_, .rxStart rfl, ?_, .rxEnd _ _ rfl (by decide),
    .writeConsumed rfl, .readConsumed rfl, .overflowConsumed rfl⟩
  · rintro q (rfl | rfl | rfl)
    · exact .writeTimeout rfl (by decide)
    · exact .responseTimeout rfl (by decide)
    · exact .readTimeout rfl (.inl (by decide))
  · obtain ⟨s, hi, hp, hc⟩ := full_inv
    exact ⟨s, hi, .overflow 0 hp hc⟩

/-- A change of each element of R37 the statement names. -/
theorem witness_WritersAsListed :
    (∃ t : State, exec .processEvents overflowed = .next t ∧ t.fail ≠ overflowed.fail) ∧
    (∃ t : State, exec (.write emptyPacket true 5) State.reset = .next t ∧ t.txlen ≠ 0 ∧
      t.autostart ≠ false ∧ t.readTimeout ≠ 0) ∧
    (∃ t : State, exec (.startRead 5) State.reset = .next t ∧ t.killTime ≠ 0) ∧
    (∃ t : State, exec .rxStart { good .waitingForReadStart with now := 3, schedule := [] } = .next t ∧
      t.lastRxTime ≠ 0) ∧
    (∃ (w : Word) (t : State), exec (.rxWord w) (good .readInProgress) = .next t ∧ t.rxbuf ≠ [] ∧ t.rxcount ≠ 0) ∧
    (∃ t : State, exec (.rxEnd 31 7) (good .readInProgress) = .next t ∧ t.rxtailCount ≠ 0 ∧ t.rxtailBits ≠ 0) := by
  refine ⟨⟨_, rfl, by decide⟩, ⟨_, rfl, by decide, by decide, by decide⟩, ⟨_, rfl, by decide⟩,
    ⟨_, rfl, by decide⟩, ?_, ⟨_, rfl, by decide, by decide⟩⟩
  have h : (good .readInProgress).clearOutputs.rxcount < Config.params.rxCapacityWords := room
  refine ⟨Config.params.rxbufAtReset 0 0 + 1, _, congrArg settle (receiveWord_store h), ?_, Nat.succ_ne_zero _⟩
  show Memory.write (Config.params.rxbufAtReset 0) [] 0 (Config.params.rxbufAtReset 0 0 + 1) ≠ []
  simp [Memory.write, Memory.insert]

theorem witness_TransmitBufferOwned : (good .writeInProgress).phase ≠ .idle ∧ ∃ t : State,
    exec .txDone (good .writeInProgress) = .next t := ⟨by decide, _, rfl⟩

theorem witness_KillTimeIsAbsolute : (∃ t : State, exec .isBusy State.reset = .next t ∧
      t.phase = State.reset.phase) ∧
    ∃ t : State, exec (.startRead 1) State.reset = .next t ∧ t.killTime ≠ State.reset.killTime :=
  ⟨⟨_, rfl, rfl⟩, _, rfl, by decide⟩

theorem witness_CommandsAsListed :
    (∃ t : State, exec (.write emptyPacket true 5) State.reset = .next t ∧
      t.emitted = some (.txStart (txImage emptyPacket))) ∧
    (∃ t : State, exec (.startRead 1) State.reset = .next t ∧ t.emitted = some .rxArm) ∧
    ∃ t : State, exec .processEvents (at_ 1 .writeInProgress) = .next t ∧ t.emitted = some .abort :=
  ⟨⟨_, rfl, rfl⟩, ⟨_, rfl, rfl⟩, ⟨_, rfl, rfl⟩⟩

theorem witness_OnePollAfterTheBoundEnds :
    (Inv Config.params { good .readInProgress with now := 1, schedule := [] } ∧
      (good .readInProgress).killTime < 1) ∧
    (Inv Config.params (good .writeComplete) ∧ (good .writeComplete).phase = .writeComplete) ∧
    (Inv Config.params (good .readComplete) ∧ (good .readComplete).phase = .readComplete) ∧
    Inv Config.params overflowed ∧ overflowed.phase = .readFailed :=
  ⟨⟨inv_later (good_inv .readInProgress (by decide) (by decide)) 1 [] (by decide), by decide⟩,
    ⟨good_inv _ (by decide) (by decide), rfl⟩, ⟨good_inv _ (by decide) (by decide), rfl⟩, overflowed_inv, rfl⟩

end Sys2Proof.Tests
end

/-! What a step is, move by move: one equation of the step for each first move of the schedule, one equation
for each way a port takes a descriptor that decodes, and the statements O8 and O9 assembled from them. -/

namespace Sys2Proof.Machine

section Moves

variable {s : State} {rest : List Move}

/-! ## The step for each first move of the schedule -/

/-- With no move to come the step is the stutter (R9, log entry 3). -/
theorem step_of_schedule_nil (h : s.schedule = []) : step s = .next s := by
  simp only [step, takeNext, h]

/-- A step takes the first move of the schedule, in the state whose schedule has moved on (R9, R71). -/
theorem step_of_schedule_cons {m : Move} (h : s.schedule = m :: rest) :
    step s = takeMove m { s with schedule := rest } := by
  simp only [step, takeNext, h]

/-- The time source's move (R201, log entry 4). -/
theorem step_of_time {us : Nat} (h : s.schedule = .time us :: rest) :
    step s = .next { s with schedule := rest, now := s.now + us, result := none, emitted := none } := by
  rw [step_of_schedule_cons h]; rfl

/-- Asserting reset leaves the state elements at their old values (R250, log entry 9). -/
theorem step_of_resetAssert (h : s.schedule = .resetAssert :: rest) :
    step s = .next { s with schedule := rest, resetAsserted := true, result := none, emitted := none } := by
  rw [step_of_schedule_cons h]; rfl

/-- A release without a reset only clears the outputs (R250, log entry 9). -/
theorem step_of_resetRelease_of_running (h : s.schedule = .resetRelease :: rest) (hr : s.resetAsserted = false) :
    step s = .next { s with schedule := rest, result := none, emitted := none } := by
  simp [step_of_schedule_cons h, takeMove, hr, State.clearOutputs]

/-- Out of reset a polling move sets the line verdict and hands its descriptor to the polling port (R93). -/
theorem step_of_poll_of_running {low : Bool} {d : Descriptor} (h : s.schedule = .poll low d :: rest)
    (hr : s.resetAsserted = false) : step s = takePolling d { s with schedule := rest, lineLow := low } := by
  simp [step_of_schedule_cons h, takeMove, hr]

/-- Out of reset an event move hands its descriptor to the event port. -/
theorem step_of_event_of_running {op : Nat} {d : Descriptor} (h : s.schedule = .event op d :: rest)
    (hr : s.resetAsserted = false) : step s = takeEvent op d { s with schedule := rest } := by
  simp [step_of_schedule_cons h, takeMove, hr]

/-! ## A descriptor that decodes, on each port -/

variable {d : Descriptor} {i : Instr}

/-- The polling port runs the operation its descriptor decodes to, and the PHY sees the command (R206). -/
theorem takePolling_of_decode (hd : decode .polling d = .ok i) :
    takePolling d s = followPhy none (exec i s) := by
  simp only [takePolling, hd]

/-- An event the PHY may deliver runs, and the PHY sees it as delivered (R203, R206). -/
theorem takeEvent_of_mayDeliver {op : Nat} (hd : decode .event d = .ok i) (hm : s.phy.mayDeliver op i = true) :
    takeEvent op d s = followPhy (some i) (exec i s) := by
  simp only [takeEvent, hd, hm, if_true]

/-- An event that breaks a duty of the PHY does not reach the block (R239). -/
theorem takeEvent_of_not_mayDeliver {op : Nat} (hd : decode .event d = .ok i)
    (hm : s.phy.mayDeliver op i = false) :
    takeEvent op d s = .next { s with result := none, emitted := none } := by
  simp only [takeEvent, hd, hm, Bool.false_eq_true, if_false, ignoreEvent_eq]

end Moves

/-! ## The statements -/

/-- Settles O8: out of reset the first move's descriptor reaches its port, and the port takes what it decodes to. -/
theorem stepRunsDecodedOperation : Obligations.StepRunsDecodedOperation := by
  intro s d rest i hr
  refine ⟨fun low hs hd => ?polled, fun op hs hd hm => ?delivered, fun op hs hd hm => ?undelivered⟩
  case polled => exact (step_of_poll_of_running hs hr).trans (takePolling_of_decode hd)
  case delivered => exact (step_of_event_of_running hs hr).trans (takeEvent_of_mayDeliver hd hm)
  case undelivered => exact (step_of_event_of_running hs hr).trans (takeEvent_of_not_mayDeliver hd hm)

/-- Settles O9: the step's equation for each move without a descriptor, and for the empty schedule. -/
theorem stepOfOtherMoves : Obligations.StepOfOtherMoves := fun _ _ =>
  ⟨fun _ => step_of_time, step_of_resetAssert, step_of_resetRelease_of_running, step_of_schedule_nil⟩

end Sys2Proof.Machine

/-! The state after reset and what reset does to the moves of the schedule, the codes, and the polls that stop: the
statements O7, O10, O11 and O44. -/

namespace Sys2Proof.Machine

section ResetAndStops

variable {cfg : Params} {s : State} {rest : List Move}

/-! ## The step while reset is asserted -/

/-- A polling move only sets the line verdict input; its descriptor is lost (R250, log entry 9). -/
theorem step_of_poll_in_reset {low : Bool} {d : Descriptor} (h : s.schedule = .poll low d :: rest)
    (hr : s.resetAsserted = true) :
    step s = .next { s with schedule := rest, lineLow := low, result := none, emitted := none } := by
  simp [step_of_schedule_cons h, takeMove, hr, State.clearOutputs]

/-- An event is lost (R250, log entry 9). -/
theorem step_of_event_in_reset {op : Nat} {d : Descriptor} (h : s.schedule = .event op d :: rest)
    (hr : s.resetAsserted = true) :
    step s = .next { s with schedule := rest, result := none, emitted := none } := by
  simp [step_of_schedule_cons h, takeMove, hr, State.clearOutputs]

/-- The release puts the block in its reset state (R250). -/
theorem step_of_resetRelease_in_reset (h : s.schedule = .resetRelease :: rest) (hr : s.resetAsserted = true) :
    step s = .next (releaseReset { s with schedule := rest }) := by
  simp [step_of_schedule_cons h, takeMove, hr]

/-! ## The polls that stop (I5) -/

/-- No rule stores `WRITE_FAILED` (R22). -/
theorem pollExchange_of_writeFailed (h : s.phase = .writeFailed) :
    pollExchange cfg s = .error .writeFailedStored := by
  simp only [pollExchange, h]

/-- `READ_FAILED` is stored for an overflow only (R38 item 2). -/
theorem pollExchange_of_readFailed (h : s.phase = .readFailed) (hf : s.fail ≠ .bufferOverflow) :
    pollExchange cfg s = .error (.readFailedWithoutOverflow s.fail) := by
  simp only [pollExchange, h, if_neg hf]

end ResetAndStops

/-! ## The statements -/

/-- Settles O7: both code tables, value by value. -/
theorem phaseAndReasonCodes : Obligations.PhaseAndReasonCodes := ⟨rfl, rfl⟩

/-- Settles O11: each state element is read off the reset state. -/
theorem resetValues : Obligations.ResetValues :=
  ⟨rfl, rfl, rfl, rfl, rfl, rfl, rfl, rfl, rfl, rfl, rfl, rfl⟩

/-- Settles O10: the step's equation under reset for each port and for the release; after the release no word of a
buffer is listed, so each reads as the new draw. -/
theorem resetTakesNothingThenClears : Obligations.ResetTakesNothingThenClears := fun _ _ hr =>
  ⟨fun _ _ hs => step_of_poll_in_reset hs hr, fun _ _ hs => step_of_event_in_reset hs hr,
    fun hs => ⟨_, step_of_resetRelease_in_reset hs hr, rfl, fun _ => ⟨rfl, rfl⟩⟩⟩

/-- Settles O44: `PROCESS_EVENTS` settles the poll of the state with its outputs cleared, and the fault is that
poll's. -/
theorem unreachablePhasesFault : Obligations.UnreachablePhasesFault := fun s =>
  ⟨fun hp => congrArg settle (pollExchange_of_writeFailed (s := s.clearOutputs) hp),
    fun hp hf => congrArg settle (pollExchange_of_readFailed (s := s.clearOutputs) hp hf)⟩

end Sys2Proof.Machine

/-! The writers of each state element (R37): one lemma per row of the table, each read off the cases of an operation,
and the statement O56 assembled from them. -/

namespace Sys2Proof.Machine

section Writers

variable {i : Instr} {s t : State}

/-- `FAIL`. A new exchange begins in `IDLE`, where a good state already holds no failure, so clearing `FAIL` there
changes nothing. -/
theorem exec_fail_writer (hs : Inv Config.params s) (h : exec i s = .next t) (hne : t.fail ≠ s.fail) :
    (i = .processEvents ∧ t.fail = .none) ∨ ∃ w, i = .rxWord w ∧ t.fail = .bufferOverflow := by
  have idle_fail (hp : s.phase = .idle) : s.fail = .none := by simpa [hp] using hs.failStored
  cases exec_cases h with
  | wrote _ _ _ _ _ hp => exact absurd (idle_fail hp).symm hne
  | listened _ hp => exact absurd (idle_fail hp).symm hne
  | overflowConsumed => exact .inl ⟨rfl, rfl⟩
  | overflowed w => exact .inr ⟨w, rfl, rfl⟩
  | _ => exact absurd rfl hne

/-- `KILL_TIME`. -/
theorem exec_killTime_writer (h : exec i s = .next t) (hne : t.killTime ≠ s.killTime) :
    (∃ p a o, i = .write p a o) ∨ (∃ o, i = .startRead o) ∨ i = .txDone ∨ i = .rxStart := by
  cases exec_cases h with
  | wrote p a o => exact .inl ⟨p, a, o, rfl⟩
  | listened o => exact .inr (.inl ⟨o, rfl⟩)
  | sentThenListening => exact .inr (.inr (.inl rfl))
  | started => exact .inr (.inr (.inr rfl))
  | _ => exact absurd rfl hne

/-- `LAST_RX_TIME`. -/
theorem exec_lastRxTime_writer (h : exec i s = .next t) (hne : t.lastRxTime ≠ s.lastRxTime) :
    i = .rxStart ∨ ∃ w, i = .rxWord w := by
  cases exec_cases h with
  | started => exact .inl rfl
  | stored w => exact .inr ⟨w, rfl⟩
  | _ => exact absurd rfl hne

/-- Every operation and event but `WRITE` leaves the transmit side as it is. -/
theorem exec_keeps_transmit (h : exec i s = .next t) (hi : ∀ p a o, i ≠ .write p a o) :
    t.autostart = s.autostart ∧ t.readTimeout = s.readTimeout ∧ t.txbuf = s.txbuf ∧ t.txlen = s.txlen := by
  cases exec_cases h with
  | wrote p a o => exact absurd rfl (hi p a o)
  | _ => exact ⟨rfl, rfl, rfl, rfl⟩

/-- `AUTOSTART`, `READ_TIMEOUT`, `TXBUF` and `TXLEN`. -/
theorem exec_transmit_writer (h : exec i s = .next t)
    (hne : t.autostart ≠ s.autostart ∨ t.readTimeout ≠ s.readTimeout ∨ t.txbuf ≠ s.txbuf ∨ t.txlen ≠ s.txlen) :
    ∃ p a o, i = .write p a o := by
  by_contra hi
  obtain ⟨ha, hr, hb, hl⟩ := exec_keeps_transmit h (by simpa using hi)
  simp [ha, hr, hb, hl] at hne

/-- `RXBUF`. -/
theorem exec_rxbuf_writer (h : exec i s = .next t) (hne : t.rxbuf ≠ s.rxbuf) : ∃ w, i = .rxWord w := by
  cases exec_cases h with
  | stored w => exact ⟨w, rfl⟩
  | _ => exact absurd rfl hne

/-- `RXCOUNT`. -/
theorem exec_rxcount_writer (h : exec i s = .next t) (hne : t.rxcount ≠ s.rxcount) :
    (∃ p a o, i = .write p a o) ∨ (∃ o, i = .startRead o) ∨ i = .txDone ∨ ∃ w, i = .rxWord w := by
  cases exec_cases h with
  | wrote p a o => exact .inl ⟨p, a, o, rfl⟩
  | listened o => exact .inr (.inl ⟨o, rfl⟩)
  | sentThenListening => exact .inr (.inr (.inl rfl))
  | stored w => exact .inr (.inr (.inr ⟨w, rfl⟩))
  | _ => exact absurd rfl hne

/-- `RXTAIL_COUNT` and `RXTAIL_BITS`. -/
theorem exec_tail_writer (h : exec i s = .next t)
    (hne : t.rxtailCount ≠ s.rxtailCount ∨ t.rxtailBits ≠ s.rxtailBits) :
    (∃ p a o, i = .write p a o) ∨ (∃ o, i = .startRead o) ∨ i = .txDone ∨ ∃ tc tb, i = .rxEnd tc tb := by
  cases exec_cases h with
  | wrote p a o => exact .inl ⟨p, a, o, rfl⟩
  | listened o => exact .inr (.inl ⟨o, rfl⟩)
  | sentThenListening => exact .inr (.inr (.inl rfl))
  | ended tc tb => exact .inr (.inr (.inr ⟨tc, tb, rfl⟩))
  | _ => exact absurd hne (by simp)

end Writers

/-- Settles O56: the rows of R37, one by one. -/
theorem writersAsListed : Obligations.WritersAsListed := fun _ _ _ hs h =>
  ⟨exec_fail_writer hs h, exec_killTime_writer h, exec_lastRxTime_writer h, exec_transmit_writer h,
    exec_rxbuf_writer h, exec_rxcount_writer h, exec_tail_writer h⟩

end Sys2Proof.Machine

/-! The invariants of R38 and R31. They fall into three parts that read different state elements, so that each
operation or event has to be followed through the parts it touches only: the phase sequencer's elements, the transmit
buffer, and the receive buffer. Each part is kept by every case of an operation; the moves without a descriptor keep
the whole; and the statements O51 and O52 follow. -/

namespace Sys2Proof.Machine

/-- The part of the invariants that reads the phase and what goes with it (R38 items 1, 2, 3 and 5, R31). -/
structure SequencerFits (cfg : Params) (s : State) : Prop where
  phaseStored : s.phase ≠ .writeFailed
  failStored : s.fail = if s.phase = .readFailed then .bufferOverflow else .none
  rxcountFits : s.rxcount ≤ cfg.rxCapacityWords
  lastRxPast : s.phase = .readInProgress → s.lastRxTime ≤ s.now
  txActiveStored : s.txActive = decide (s.phase = .writeInProgress)
  rxArmedStored : s.rxArmed = decide (s.phase = .waitingForReadStart ∨ s.phase = .readInProgress)

/-- The part of the invariants that reads TXBUF and TXLEN (R38 item 4, R28). -/
structure TransmitFits (cfg : Params) (s : State) : Prop where
  imageHeld : s.txlen = 0 ∨ TxHeld cfg s
  txbufWf : s.canonical cfg .txbuf = true
  txbufInside : s.txbuf.within 258 = true

/-- The part of the invariants that reads RXBUF (R29). -/
structure ReceiveFits (cfg : Params) (s : State) : Prop where
  rxbufWf : s.canonical cfg .rxbuf = true
  rxbufInside : s.rxbuf.within cfg.rxCapacityWords = true

section Invariant

variable {cfg : Params} {i : Instr} {s t : State}

/-- The three parts make up the invariants; R38 item 6 holds by the width of `RXTAIL_COUNT`. -/
theorem inv_iff : Inv cfg s ↔ SequencerFits cfg s ∧ TransmitFits cfg s ∧ ReceiveFits cfg s := by
  constructor
  · rintro ⟨phase, fail, rxcount, image, lastRx, -, txActive, rxArmed, txWf, rxWf, txIn, rxIn⟩
    exact ⟨⟨phase, fail, rxcount, lastRx, txActive, rxArmed⟩, ⟨image, txWf, txIn⟩, ⟨rxWf, rxIn⟩⟩
  · rintro ⟨⟨phase, fail, rxcount, lastRx, txActive, rxArmed⟩, ⟨image, txWf, txIn⟩, ⟨rxWf, rxIn⟩⟩
    exact ⟨phase, fail, rxcount, image, lastRx, Nat.le_of_lt_succ s.rxtailCount.isLt, txActive, rxArmed,
      txWf, rxWf, txIn, rxIn⟩

/-! ## The phase sequencer -/

/-- Every operation and event keeps the sequencer's part: one line per case, from the phase the case is taken in. -/
theorem SequencerFits.of_execCase (hs : SequencerFits Config.params s) (h : ExecCase s i t) :
    SequencerFits Config.params t := by
  obtain ⟨phase, fail, rxcount, lastRx, txActive, rxArmed⟩ := hs
  cases h with
  | returned | ignored => exact ⟨phase, fail, rxcount, lastRx, txActive, rxArmed⟩
  | wrote _ _ _ _ _ hp => constructor <;> simp [rxArmed, hp]
  | listened _ hp => constructor <;> simp [txActive, hp]
  | timedOut _ hp =>
    have hnot : s.phase ≠ .readFailed := fun hf => by simp [hf] at hp
    constructor <;> simp [fail, rxcount, hnot]
  | consumed _ hp => rcases hp with hp | hp <;> constructor <;> simp [fail, rxcount, txActive, rxArmed, hp]
  | overflowConsumed _ hp => constructor <;> simp [rxcount, txActive, rxArmed, hp]
  | sentThenListening hp => constructor <;> simp [fail, hp]
  | sent hp => constructor <;> simp [fail, rxcount, rxArmed, hp]
  | started hp => constructor <;> simp [fail, rxcount, txActive, rxArmed, hp]
  | stored _ hp hroom => constructor <;> simp [fail, txActive, rxArmed, hp, Nat.succ_le_of_lt hroom]
  | overflowed => constructor <;> simp [rxcount]
  | ended _ _ _ hp => constructor <;> simp [fail, rxcount, txActive, hp]

/-! ## The receive buffer -/

/-- Only a word that finds room is written to RXBUF (R196). -/
theorem ReceiveFits.of_execCase (hs : ReceiveFits Config.params s) (h : ExecCase s i t) :
    ReceiveFits Config.params t := by
  cases h with
  | stored w _ hroom => exact ⟨Memory.wf_write _ w hs.rxbufWf, Memory.within_write w hroom hs.rxbufInside⟩
  | _ => exact ⟨hs.rxbufWf, hs.rxbufInside⟩

/-! ## The transmit buffer -/

/-- Which image is held depends on TXBUF, TXLEN and the number of the reset alone. -/
theorem TxHeld.of_agree (h : TxHeld cfg s) (hbuf : t.txbuf = s.txbuf) (hlen : t.txlen = s.txlen)
    (hr : t.resets = s.resets) : TxHeld cfg t := by
  have hword : t.word cfg .txbuf = s.word cfg .txbuf := by funext j; simp [hbuf, hr]
  obtain ⟨atLeast, atMost, header, frame⟩ := h
  constructor <;> rw [hlen] <;> simpa only [hword]

theorem TransmitFits.of_agree (h : TransmitFits cfg s) (hbuf : t.txbuf = s.txbuf) (hlen : t.txlen = s.txlen)
    (hr : t.resets = s.resets) : TransmitFits cfg t where
  imageHeld := h.imageHeld.imp hlen.trans fun held => held.of_agree hbuf hlen hr
  txbufWf := by simpa [hbuf, hr] using h.txbufWf
  txbufInside := by simpa only [hbuf] using h.txbufInside

/-- The length field of a packed frame word (R110). -/
theorem byte0_packFrame (cmd rcp snd len : Byte) : byte0 (packFrame cmd rcp snd len) = len := by
  ext j hj
  simp [byte0, packFrame, hj, show j < 16 by omega, show j < 24 by omega, show j < 32 by omega]

/-- The first two words of a packet's image and its length are what R38 item 4 asks for. -/
theorem TxHeld.of_image {p : Packet} (hp : p.payload.length ≤ 255)
    (hlen : t.txlen = BitVec.ofNat 9 (p.payload.length + 3))
    (hheader : t.word cfg .txbuf 0 = BitVec.ofNat 32 (totalBits p.payload.length))
    (hframe : t.word cfg .txbuf 1 = frameOf p) : TxHeld cfg t := by
  have hlenNat : t.txlen.toNat = p.payload.length + 3 := by
    rw [hlen, BitVec.toNat_ofNat, Nat.mod_eq_of_lt (by omega)]
  have hdeclared : (t.word cfg .txbuf 1).extractLsb' 0 8 = BitVec.ofNat 8 p.payload.length :=
    hframe ▸ byte0_packFrame ..
  constructor
  case atLeast => omega
  case atMost => omega
  case header => rw [hheader, hlenNat, totalBits, Nat.mul_comm]; rfl
  case frame => rw [hdeclared, hlenNat, BitVec.toNat_ofNat, Nat.mod_eq_of_lt (by omega)]

/-- The body of a `WRITE` leaves the packet's image in TXBUF (R150). -/
theorem TransmitFits.of_beginWrite {p : Packet} {a : Bool} {o : Timeout} (hs : TransmitFits cfg s)
    (hp : p.payload.length ≤ 255) (h : beginWrite cfg p a o s = .ok t) : TransmitFits cfg t := by
  obtain ⟨m, hm, hwf, hinside, hread⟩ := beginWrite_spec cfg p a o s hp hs.txbufWf
  obtain rfl := Except.ok.inj (h.symm.trans hm)
  refine ⟨.inr (TxHeld.of_image hp rfl ?header ?frame), hwf, hinside hs.txbufInside⟩
  case header => exact (hread 0).trans (if_pos (by omega))
  case frame => exact (hread 1).trans (if_pos (by omega))

/-- A `WRITE` of a Packet in `IDLE` on a quiet line is not turned away (R150, R151, R154). -/
theorem exec_write_of_quiet {p : Packet} {a : Bool} {o : Timeout} (hp : p.payload.length ≤ 255)
    (hidle : s.phase = .idle) (hquiet : s.lineLow = false) :
    exec (.write p a o) s = settle (beginWrite Config.params p a o s.clearOutputs) := by
  simp [exec, execWrite, runWrite, ifTyped, Packet.wellFormed, busy, hp, hidle, hquiet]

/-- Every operation and event keeps the transmit buffer's part: a `WRITE` that is not turned away holds its image, and
nothing else writes TXBUF or TXLEN. -/
theorem TransmitFits.of_exec (hs : TransmitFits Config.params s) (h : exec i s = .next t) :
    TransmitFits Config.params t := by
  cases exec_cases h with
  | wrote p a o m hp hidle hquiet =>
    have hcleared : TransmitFits Config.params s.clearOutputs := hs.of_agree rfl rfl rfl
    exact hcleared.of_beginWrite hp (settle_eq_next.1 (exec_write_of_quiet hp hidle hquiet ▸ h))
  | _ => exact hs.of_agree rfl rfl rfl

/-! ## The invariants -/

/-- Every operation and event keeps the invariants. -/
theorem Inv.of_exec (hs : Inv Config.params s) (h : exec i s = .next t) : Inv Config.params t := by
  obtain ⟨sequencer, transmit, receive⟩ := inv_iff.1 hs
  exact inv_iff.2 ⟨sequencer.of_execCase (exec_cases h), transmit.of_exec h, receive.of_execCase (exec_cases h)⟩

/-- The ports, the PHY agent and the schedule are free in the invariants, and the time input may go on. -/
theorem Inv.of_ports (hs : Inv cfg s) {now : Nat} (hnow : s.now ≤ now) (low e : Bool) (r : Option Result)
    (c : Option PhyCommand) (p : Phy) (ms : List Move) :
    Inv cfg { s with
      now := now, lineLow := low, resetAsserted := e, result := r, emitted := c, phy := p, schedule := ms } := by
  obtain ⟨⟨phase, fail, rxcount, lastRx, txActive, rxArmed⟩, transmit, ⟨rxWf, rxIn⟩⟩ := inv_iff.1 hs
  exact inv_iff.2 ⟨⟨phase, fail, rxcount, fun h => (lastRx h).trans hnow, txActive, rxArmed⟩,
    transmit.of_agree rfl rfl rfl, ⟨rxWf, rxIn⟩⟩

theorem Inv.of_phyFollows (h : Inv cfg s) (e : Option Instr) : Inv cfg (s.phyFollows e) :=
  h.of_ports le_rfl _ _ _ _ _ _

/-- The reset state has the invariants whichever reset it is of, so for any draw of the buffers (log entry 5). -/
theorem inv_reset (cfg : Params) (n : Nat) : Inv cfg { State.reset with resets := n } := by
  constructor <;> simp [State.reset]

/-- The release of reset leads to a state with the invariants from every state. -/
theorem inv_releaseReset (cfg : Params) (s : State) : Inv cfg (releaseReset s) :=
  (inv_reset cfg (s.resets + 1)).of_ports (Nat.zero_le s.now) _ _ _ _ _ _

/-- Every step keeps the invariants: an operation or event does, the time input only rises, a lost or refused
descriptor touches the ports only, and the release of reset establishes them. -/
theorem Inv.of_step (hs : Inv Config.params s) (h : step s = .next t) : Inv Config.params t := by
  obtain ⟨-, rfl⟩ | ⟨m, rest, -, hmove⟩ := step_cases h
  · exact hs
  obtain ⟨i, low, u, -, hu, rfl⟩ | ⟨i, u, -, -, -, hu, rfl⟩ | ⟨r, e, low, rfl⟩ | ⟨us, rfl⟩ | rfl := hmove
  · exact ((hs.of_ports le_rfl low _ _ _ _ rest).of_exec hu).of_phyFollows none
  · exact ((hs.of_ports le_rfl _ _ _ _ _ rest).of_exec hu).of_phyFollows (some i)
  · exact hs.of_ports le_rfl low e r none _ rest
  · exact hs.of_ports (Nat.le_add_right _ us) _ _ none none _ rest
  · exact inv_releaseReset _ { s with schedule := rest }

/-! ## The fit of PHY and phase -/

/-- The operations of the polling port are those no phase takes as an event (R202). -/
theorem takingPhase_eq_none_iff : takingPhase i = none ↔ i.port = .polling := by
  cases i <;> simp [takingPhase, Instr.port_eq, Instr.opName, OpName.port]

/-- Where what the PHY is doing fits the phase, the phase takes what the PHY may deliver (R203 item 5). -/
theorem PhyActivity.takingPhase_of_delivers {a : PhyActivity} {q : Phase} (hfit : a.fits q)
    (hd : a.delivers i = true) : takingPhase i = some q := by
  unfold PhyActivity.delivers at hd
  split at hd
  case h_5 => cases hd
  all_goals exact congrArg some (Eq.symm hfit)

/-- A phase in which the PHY may be doing nothing is one in which it can do nothing else. -/
theorem PhyActivity.eq_idle_of_fits {a : PhyActivity} {q : Phase} (hfit : a.fits q)
    (hq : PhyActivity.idle.fits q) : a = .idle := by
  obtain ⟨hw, hr, hi⟩ := hq
  cases a with
  | idle => rfl
  | sending => exact absurd hfit hw
  | armed => exact absurd hfit hr
  | receiving => exact absurd hfit hi

/-- With no command sent, the PHY goes on as the event it delivered leaves it. -/
@[simp] theorem Phy.activity_after_none (p : Phy) (e : Option Instr) :
    (p.after e none).activity = p.activity.afterEvent e := rfl

/-- An operation of the polling port keeps the fit: the command it sends has the PHY do what the new phase asks, and a
phase consumed without a command is one in which the PHY does nothing. -/
theorem phy_fits_of_polling (hfit : s.phy.activity.fits s.phase) (hi : i.port = .polling) (h : exec i s = .next t) :
    (t.phyFollows none).phy.activity.fits t.phase := by
  have still (hp : PhyActivity.idle.fits s.phase) : s.phy.activity.fits .idle := by
    rw [PhyActivity.eq_idle_of_fits hfit hp]; simp [PhyActivity.fits]
  have hnone := takingPhase_eq_none_iff.2 hi
  cases exec_cases h with
  | returned | ignored => exact hfit
  | wrote | listened => rfl
  | timedOut => simp [PhyActivity.fits]
  | consumed _ hp => exact still (by rcases hp with hp | hp <;> simp [hp, PhyActivity.fits])
  | overflowConsumed _ hp => exact still (by simp [hp, PhyActivity.fits])
  | sentThenListening | sent | started | stored | overflowed | ended => cases hnone

/-- An event the PHY may deliver keeps the fit: it is one the phase takes, and the PHY and the phase move on
together. -/
theorem phy_fits_of_event (hfit : s.phy.activity.fits s.phase) (hwf : i.WellFormed)
    (hd : s.phy.activity.delivers i = true) (h : exec i s = .next t) :
    (t.phyFollows (some i)).phy.activity.fits t.phase := by
  have htaken := PhyActivity.takingPhase_of_delivers hfit hd
  cases exec_cases h with
  | ignored _ _ hnot => exact absurd htaken hnot
  | returned _ _ _ hport =>
    have hnone := takingPhase_eq_none_iff.2 (hport.resolve_right (not_not_intro hwf))
    cases htaken.symm.trans hnone
  | wrote | listened | timedOut | consumed | overflowConsumed => cases htaken
  | sentThenListening | started => rfl
  | stored => exact hfit
  | sent | overflowed | ended => simp [PhyActivity.fits, PhyActivity.afterEvent]

/-- Every step keeps the fit of PHY and phase; the moves without an operation leave both, and the release of reset has
the PHY do nothing in `IDLE`. -/
theorem phy_fits_of_step (hfit : s.phy.activity.fits s.phase) (h : step s = .next t) :
    t.phy.activity.fits t.phase := by
  obtain ⟨-, rfl⟩ | ⟨m, rest, -, hmove⟩ := step_cases h
  · exact hfit
  obtain ⟨i, low, u, hi, hu, rfl⟩ | ⟨i, u, -, hwf, hd, hu, rfl⟩ | ⟨r, e, low, rfl⟩ | ⟨us, rfl⟩ | rfl := hmove
  · exact phy_fits_of_polling (s := { s with schedule := rest, lineLow := low }) hfit hi hu
  · exact phy_fits_of_event (s := { s with schedule := rest }) hfit hwf hd hu
  · exact hfit
  · exact hfit
  · simp [PhyActivity.fits, State.reset]

end Invariant

/-! ## The statements -/

/-- Settles O52: the reset state is that of reset number 0, with the PHY doing nothing in `IDLE`. -/
theorem invariantAtReset : Obligations.InvariantAtReset :=
  ⟨inv_reset _ 0, by simp [PhyActivity.fits, State.reset]⟩

/-- Settles O51: the three parts of the invariants over every case of a step, and the fit of PHY and phase, which needs
no invariant but itself. -/
theorem invariantKept : Obligations.InvariantKept :=
  ⟨fun _ _ => Inv.of_step, fun _ _ _ => phy_fits_of_step⟩

end Sys2Proof.Machine

/-! What the memory operations of a step keep, and that they never stop a good state: the statements O29, O53, O54 and
O57. The cases of an operation (`exec_cases`) give what it leaves as it is; that it goes on at all is followed through
the three operations that access a buffer. -/

namespace Sys2Proof.Machine

section MemoryOfAStep

variable {cfg : Params} {i : Instr} {s t : State}

/-! ## The operations that only return a value (R69) -/

/-- The codec operations and `IS_BUSY`. -/
def OnlyReturns : Instr → Prop
  | .framePack _ _ _ _ | .frameUnpack _ | .pktValid _ | .crc8 _ | .wordFlip _ | .payloadSet _ _
  | .payloadSetFlipped _ _ | .payloadAppend _ _ | .payloadAppendFlipped _ _ | .totalBits _ | .txTimeNs _
  | .isBusy => True
  | _ => False

/-- Whether or not the operands keep their types, an operation that would only return a value returns one, if only
`REFUSED` (R97). -/
theorem ifTyped_returnOnly (ok : Bool) (r : Result) (s : State) :
    ∃ r' : Result, ifTyped ok (returnOnly r s) s = .next { s with result := some r', emitted := none } := by
  cases ok with
  | true => exact ⟨r, ifTyped_of_true rfl _ s⟩
  | false => exact ⟨.refused, ifTyped_of_false rfl _ s⟩

/-- A codec operation and `IS_BUSY` change the two outputs alone, from every state. -/
theorem exec_of_onlyReturns (hi : OnlyReturns i) (s : State) :
    ∃ r : Result, exec i s = .next { s with result := some r, emitted := none } := by
  cases i with
  | framePack | frameUnpack | crc8 | wordFlip | isBusy => exact ⟨_, rfl⟩
  | pktValid | payloadSet | payloadSetFlipped | payloadAppend | payloadAppendFlipped | totalBits | txTimeNs =>
    exact ifTyped_returnOnly _ _ s
  | write | startRead | processEvents | txDone | rxStart | rxWord | rxEnd => exact hi.elim

/-- A `WRITE` that does not return `true` changes the two outputs alone. -/
theorem exec_write_of_not_true {p : Packet} {a : Bool} {o : Timeout} (h : exec (.write p a o) s = .next t)
    (hr : t.result ≠ some (.bit true)) : t = { s with result := t.result, emitted := none } := by
  cases exec_cases h with
  | wrote => exact absurd rfl hr
  | returned | ignored => rfl

/-- A `START_READ` that does not return `true` changes the two outputs alone. -/
theorem exec_startRead_of_not_true {o : Timeout} (h : exec (.startRead o) s = .next t)
    (hr : t.result ≠ some (.bit true)) : t = { s with result := t.result, emitted := none } := by
  cases exec_cases h with
  | listened => exact absurd rfl hr
  | returned | ignored => rfl

/-! ## The owner of the transmit buffer (R76) -/

/-- The only writer of TXBUF and TXLEN is a `WRITE` taken in `IDLE`. -/
theorem exec_keeps_txbuf_of_busy (hp : s.phase ≠ .idle) (h : exec i s = .next t) :
    t.txbuf = s.txbuf ∧ t.txlen = s.txlen := by
  cases exec_cases h with
  | wrote _ _ _ _ _ hidle => exact absurd hidle hp
  | _ => exact ⟨rfl, rfl⟩

/-! ## The canonical form (log entry 12) -/

/-- Every operation and event keeps the canonical form of each buffer: only an accepted `WRITE` stores in TXBUF and only
an accepted `RX_WORD` in RXBUF. -/
theorem canonical_of_exec (b : BufferName) (hs : s.canonical Config.params b = true) (h : exec i s = .next t) :
    t.canonical Config.params b = true := by
  cases exec_cases h with
  | wrote _ _ _ _ _ _ _ hwf =>
    cases b with
    | txbuf => exact hwf hs
    | rxbuf => exact hs
  | stored w =>
    cases b with
    | txbuf => exact hs
    | rxbuf => exact Memory.wf_write _ w hs
  | _ => exact hs

/-- With no word listed a buffer is in canonical form, whatever it held at reset. -/
theorem canonical_of_buffer_nil {b : BufferName} (h : s.buffer b = []) : s.canonical cfg b = true := by
  rw [State.canonical, h, Memory.wf_nil]

/-- Every step keeps the canonical form of each buffer. The moves without an operation leave the buffers and the number
of the reset, and the release of reset leaves no word listed. -/
theorem canonical_of_step (b : BufferName) (hs : s.canonical Config.params b = true) (h : step s = .next t) :
    t.canonical Config.params b = true := by
  obtain ⟨-, rfl⟩ | ⟨m, rest, -, hmove⟩ := step_cases h
  · exact hs
  obtain ⟨i, low, u, -, hu, rfl⟩ | ⟨i, u, -, -, -, hu, rfl⟩ | ⟨r, e, low, rfl⟩ | ⟨us, rfl⟩ | rfl := hmove
  · exact canonical_of_exec (s := { s with schedule := rest, lineLow := low }) (t := u) b hs hu
  · exact canonical_of_exec (s := { s with schedule := rest }) (t := u) b hs hu
  · exact hs
  · exact hs
  · exact canonical_of_buffer_nil (by cases b <;> rfl)

/-! ## Good states never stop (R61, R220) -/

/-- An outcome that is no stop. -/
def GoesOn (x : Host.Outcome State Fault Refusal) : Prop := ∃ t, x = .next t

theorem goesOn_next (t : State) : GoesOn (.next t) := ⟨t, rfl⟩

theorem goesOn_settle {x : Except Fault State} (h : ∃ t, x = .ok t) : GoesOn (settle x) :=
  h.imp fun _ => settle_eq_next.2

/-- A choice goes on when both sides do, each under its condition. -/
theorem goesOn_ite {c : Prop} [Decidable c] {x y : Host.Outcome State Fault Refusal} (hx : c → GoesOn x)
    (hy : ¬c → GoesOn y) : GoesOn (if c then x else y) := iteInduction hx hy

/-- An ill-typed operation is refused by a value, so only the typed run matters (R97). -/
theorem goesOn_ifTyped {ok : Bool} {run : Host.Outcome State Fault Refusal} (h : ok = true → GoesOn run) :
    GoesOn (ifTyped ok run s) := goesOn_ite h fun _ => goesOn_next _

theorem GoesOn.followPhy {x : Host.Outcome State Fault Refusal} (h : GoesOn x) (e : Option Instr) :
    GoesOn (followPhy e x) := by
  obtain ⟨u, rfl⟩ := h
  exact goesOn_next _

theorem Inv.of_clearOutputs (hs : Inv cfg s) : Inv cfg s.clearOutputs := hs.of_ports le_rfl _ _ _ _ _ _

/-- The words of a finished receive can be read, so its poll is resolved (R168). -/
theorem resolveReceive_exists_ok (hfit : s.rxcount ≤ cfg.rxCapacityWords) : ∃ t, resolveReceive cfg s = .ok t :=
  ⟨_, resolveReceive_of_words (by simp) (memReadRange_fits s.rxcount 0 (by simpa [bufferSize] using hfit))⟩

/-- A poll meets no fault in a good state: neither of the two stored values of I5 is there, and the words counted are
inside RXBUF. -/
theorem pollExchange_exists_ok (hs : Inv cfg s) : ∃ t, pollExchange cfg s = .ok t := by
  unfold pollExchange
  cases hp : s.phase with
  | writeFailed => exact absurd hp hs.phaseStored
  | readFailed =>
    have hfail : s.fail = .bufferOverflow := by simpa [hp] using hs.failStored
    exact ⟨_, if_pos hfail⟩
  | readComplete => exact resolveReceive_exists_ok hs.rxcountFits
  | idle | writeInProgress | writeComplete | waitingForReadStart | readInProgress => exact ⟨_, rfl⟩

/-- An accepted word is stored or overflows, where no more words are counted than fit (R196). -/
theorem receiveWord_exists_ok (w : Word) (hfit : s.rxcount ≤ cfg.rxCapacityWords) :
    ∃ t, receiveWord cfg w s = .ok t := by
  obtain hroom | hfull := hfit.lt_or_eq
  · exact ⟨_, receiveWord_store hroom⟩
  · exact ⟨_, receiveWord_overflow hfull⟩

/-- The image of a Packet fits TXBUF (R84, R150). -/
theorem beginWrite_exists_ok {p : Packet} (hp : p.wellFormed = true) (a : Bool) (o : Timeout)
    (hwf : s.canonical cfg .txbuf = true) : ∃ t, beginWrite cfg p a o s = .ok t := by
  obtain ⟨m, hm, -⟩ := beginWrite_spec cfg p a o s (by simpa [Packet.wellFormed] using hp) hwf
  exact ⟨_, hm⟩

/-- Every operation and event goes on from a good state: the three that access a buffer because the access is inside
it, and every other one from every state. -/
theorem goesOn_exec (hs : Inv Config.params s) (i : Instr) : GoesOn (exec i s) := by
  have returns (hi : OnlyReturns i) : GoesOn (exec i s) :=
    have ⟨_, h⟩ := exec_of_onlyReturns hi s
    ⟨_, h⟩
  cases i with
  | write p a o =>
    exact goesOn_ifTyped fun hp => goesOn_ite (fun _ => goesOn_next _) fun _ =>
      goesOn_ite (fun _ => goesOn_next _) fun _ =>
        goesOn_settle (beginWrite_exists_ok hp a o hs.of_clearOutputs.txbufWf)
  | processEvents => exact goesOn_settle (pollExchange_exists_ok hs.of_clearOutputs)
  | rxWord w =>
    exact goesOn_ite (fun _ => goesOn_settle (receiveWord_exists_ok w hs.of_clearOutputs.rxcountFits))
      fun _ => goesOn_next _
  | startRead | txDone | rxStart => exact goesOn_ite (fun _ => goesOn_next _) fun _ => goesOn_next _
  | rxEnd => exact goesOn_ifTyped fun _ => goesOn_ite (fun _ => goesOn_next _) fun _ => goesOn_next _
  | _ => exact returns trivial

/-- The polling port takes every descriptor in a good state. -/
theorem goesOn_takePolling (hs : Inv Config.params s) (d : Descriptor) : GoesOn (takePolling d s) := by
  unfold takePolling
  split
  · exact (goesOn_exec hs _).followPhy none
  · exact goesOn_next _

/-- The event port takes every descriptor in a good state, whether or not the PHY may deliver it. -/
theorem goesOn_takeEvent (hs : Inv Config.params s) (op : Nat) (d : Descriptor) : GoesOn (takeEvent op d s) := by
  unfold takeEvent
  split
  · exact goesOn_ite (fun _ => (goesOn_exec hs _).followPhy _) fun _ => goesOn_next _
  · exact goesOn_next _

/-- Every move is taken in a good state. -/
theorem goesOn_takeMove (hs : Inv Config.params s) (m : Move) : GoesOn (takeMove m s) := by
  cases m with
  | time | resetAssert => exact goesOn_next _
  | poll low d =>
    exact goesOn_ite (fun _ => goesOn_next _) fun _ =>
      goesOn_takePolling (hs.of_ports le_rfl low _ _ _ _ _) d
  | event op d => exact goesOn_ite (fun _ => goesOn_next _) fun _ => goesOn_takeEvent hs op d
  | resetRelease => exact goesOn_ite (fun _ => goesOn_next _) fun _ => goesOn_next _

/-- Every step goes on from a good state. -/
theorem goesOn_step (hs : Inv Config.params s) : GoesOn (step s) := by
  cases hm : s.schedule with
  | nil => exact ⟨s, step_of_schedule_nil hm⟩
  | cons m rest =>
    rw [step_of_schedule_cons hm]
    exact goesOn_takeMove (hs.of_ports le_rfl _ _ _ _ _ rest) m

end MemoryOfAStep

/-! ## The statements -/

/-- Settles O29: codec operations and `IS_BUSY` only return a value; of the cases of `WRITE` and `START_READ` the one
that changes more than the outputs returns `true`. -/
theorem onlyWhatSucceedsChangesState : Obligations.OnlyWhatSucceedsChangesState := by
  refine fun i s => ⟨fun hi => exec_of_onlyReturns (i := i) hi s, fun hi t h hr => ?_⟩
  cases i with
  | write => exact exec_write_of_not_true h hr
  | startRead => exact exec_startRead_of_not_true h hr
  | _ => exact hi.elim

/-- Settles O53: each move goes on, down to the buffer accesses of `WRITE`, `PROCESS_EVENTS` and `RX_WORD`. -/
theorem goodStatesNeverStop : Obligations.GoodStatesNeverStop := fun _ => goesOn_step

/-- Settles O54: each buffer on its own. -/
theorem buffersStayCanonical : Obligations.BuffersStayCanonical := fun _ _ htx hrx h =>
  ⟨canonical_of_step .txbuf htx h, canonical_of_step .rxbuf hrx h⟩

/-- Settles O57: the one case that writes the transmit buffer is taken in `IDLE`. -/
theorem transmitBufferOwned : Obligations.TransmitBufferOwned := fun _ _ _ => exec_keeps_txbuf_of_busy

end Sys2Proof.Machine

/-! The operation map and its inverse: a descriptor decodes exactly when it is the encoding of a well-formed operation
of its port. The statements O1 to O5 follow from this one equivalence. -/

namespace Sys2Proof

open Machine

section Encoding

variable {port : Port} {d : Descriptor} {i : Instr} {s : State}

/-! ## Decoding is the inverse of encoding -/

/-- Every operation is encoded as the map lists it. -/
theorem encode_asListed : ∀ i : Instr, Laws.EncodedAsListed.Statement i
  | .write p a t => Laws.EncodedAsListed.write p a t
  | .startRead t => Laws.EncodedAsListed.startRead t
  | .processEvents => Laws.EncodedAsListed.processEvents
  | .isBusy => Laws.EncodedAsListed.isBusy
  | .framePack c r s l => Laws.EncodedAsListed.framePack c r s l
  | .frameUnpack w => Laws.EncodedAsListed.frameUnpack w
  | .pktValid p => Laws.EncodedAsListed.pktValid p
  | .crc8 ws => Laws.EncodedAsListed.crc8 ws
  | .wordFlip w => Laws.EncodedAsListed.wordFlip w
  | .payloadSet p ws => Laws.EncodedAsListed.payloadSet p ws
  | .payloadSetFlipped p ws => Laws.EncodedAsListed.payloadSetFlipped p ws
  | .payloadAppend p ws => Laws.EncodedAsListed.payloadAppend p ws
  | .payloadAppendFlipped p ws => Laws.EncodedAsListed.payloadAppendFlipped p ws
  | .totalBits n => Laws.EncodedAsListed.totalBits n
  | .txTimeNs n => Laws.EncodedAsListed.txTimeNs n
  | .txDone => Laws.EncodedAsListed.txDone
  | .rxStart => Laws.EncodedAsListed.rxStart
  | .rxWord w => Laws.EncodedAsListed.rxWord w
  | .rxEnd tc tb => Laws.EncodedAsListed.rxEnd tc tb

/-- The operands an operation is read from are those it is encoded with: one case per shape of operand list. -/
theorem encode_operands_of_read {name : OpName} {os : List Operand} (h : readOperands name os = some i) :
    (encode i).operands = os := by
  cases name with
  | processEvents | isBusy | txDone | rxStart => obtain ⟨rfl, rfl⟩ := readNone_eq_some.1 h; rfl
  | startRead | frameUnpack | wordFlip | rxWord => obtain ⟨w, rfl, rfl⟩ := readWord_eq_some.1 h; rfl
  | totalBits | txTimeNs => obtain ⟨n, rfl, rfl⟩ := readNat_eq_some.1 h; rfl
  | pktValid => obtain ⟨p, rfl, rfl⟩ := readPacket_eq_some.1 h; rfl
  | crc8 => obtain ⟨ws, rfl, rfl⟩ := readWords_eq_some.1 h; rfl
  | payloadSet | payloadSetFlipped | payloadAppend | payloadAppendFlipped =>
    obtain ⟨p, ws, rfl, rfl⟩ := readPacketWords_eq_some.1 h; rfl
  | write => obtain ⟨p, a, t, rfl, rfl⟩ := readWrite_eq_some.1 h; rfl
  | framePack => obtain ⟨c, r, s, l, rfl, rfl⟩ := readFrameBytes_eq_some.1 h; rfl
  | rxEnd => obtain ⟨tc, tb, rfl, rfl⟩ := readTail_eq_some.1 h; rfl

/-- Decoding a well-formed operation's descriptor on its port gives the operation back (R91, R96). -/
theorem decode_encode (h : i.WellFormed) : decode i.port (encode i) = .ok i :=
  have ⟨hop, hread⟩ := encode_asListed i
  decode_eq_ok.2 ⟨i.opName, lookupOp_eq_some.2 hop, rfl, hread, h⟩

/-- A descriptor that decodes is the encoding of what it decodes to. -/
theorem encode_of_decode (h : decode port d = .ok i) : encode i = d := by
  obtain ⟨name, hname, -, hread, -⟩ := decode_eq_ok.1 h
  have hop : (encode i).op = d.op := by
    rw [(encode_asListed i).1, readOperands_opName hread, lookupOp_eq_some.1 hname]
  exact congrArg₂ Descriptor.mk hop (encode_operands_of_read hread)

/-- Decoding is the inverse of encoding, on the well-formed operations of the port. -/
theorem decode_eq_ok_iff_encode : decode port d = .ok i ↔ i.WellFormed ∧ i.port = port ∧ encode i = d :=
  ⟨fun h => ⟨(decode_port h).2, (decode_port h).1, encode_of_decode h⟩,
    fun ⟨hwf, hport, hd⟩ => hport ▸ hd ▸ decode_encode hwf⟩

/-- The same with the port read off the operation's name, as the map lists it. -/
theorem decode_of_encode (hwf : i.WellFormed) (hport : i.opName.port = port) (hd : encode i = d) :
    decode port d = .ok i :=
  decode_eq_ok_iff_encode.2 ⟨hwf, i.port_eq.trans hport, hd⟩

/-! ## What decodes to nothing (R97) -/

/-- An `OP` value that the map of R96 does not list. -/
def ReservedOp (n : Nat) : Prop :=
  n = 0 ∨ (0x05 ≤ n ∧ n ≤ 0x0F) ∨ (0x1B ≤ n ∧ n ≤ 0x7F) ∨ (0x84 ≤ n ∧ n ≤ 0xFF)

/-- The map lists no reserved value. -/
theorem not_reservedOp_code (name : OpName) : ¬ ReservedOp name.code.toNat := by
  unfold ReservedOp; cases name <;> decide

/-- The `OP` byte of what decodes is a code of the map, of a name on the port. -/
theorem exists_code_of_decode (h : decode port d = .ok i) :
    ∃ name : OpName, d.op = name.code ∧ name.port = port :=
  have hport : i.opName.port = port := i.port_eq ▸ (decode_port h).1
  ⟨i.opName, encode_of_decode h ▸ (encode_asListed i).1, hport⟩

theorem decode_ne_ok_of_reservedOp (h : ReservedOp d.op.toNat) : decode port d ≠ .ok i := fun hd =>
  have ⟨name, hop, _⟩ := exists_code_of_decode hd
  not_reservedOp_code name (hop ▸ h)

/-- Bit 7 splits the codes of the map by port. -/
theorem OpName.port_eq_event_iff (name : OpName) : name.port = .event ↔ 0x80 ≤ name.code.toNat := by
  cases name <;> decide

theorem decode_polling_ne_ok (h : 0x80 ≤ d.op.toNat) : decode .polling d ≠ .ok i := fun hd => by
  obtain ⟨name, hop, hport⟩ := exists_code_of_decode hd
  have hevent := name.port_eq_event_iff.2 (hop ▸ h)
  simp [hport] at hevent

theorem decode_event_ne_ok (h : d.op.toNat < 0x80) : decode .event d ≠ .ok i := fun hd => by
  obtain ⟨name, hop, hport⟩ := exists_code_of_decode hd
  exact absurd (name.port_eq_event_iff.1 hport) (hop ▸ Nat.not_le_of_lt h)

theorem decode_ne_ok_of_illTyped (h : ∀ j : Instr, j.WellFormed → encode j ≠ d) : decode port d ≠ .ok i := fun hd =>
  h i (decode_port hd).2 (encode_of_decode hd)

/-! ## What decodes to nothing is refused (R97, log entry 6) -/

/-- The polling port answers `REFUSED` and changes nothing. -/
theorem takePolling_of_not_decode (h : ∀ i, decode .polling d ≠ .ok i) :
    takePolling d s = .next { s with result := some .refused, emitted := none } := by
  cases hd : decode .polling d with
  | ok i => exact absurd hd (h i)
  | error => simp only [takePolling, hd, returnOnly_eq]

/-- The event port answers `REFUSED` and changes nothing, whatever the PHY is doing. -/
theorem takeEvent_of_not_decode {op : Nat} (h : ∀ i, decode .event d ≠ .ok i) :
    takeEvent op d s = .next { s with result := some .refused, emitted := none } := by
  cases hd : decode .event d with
  | ok i => exact absurd hd (h i)
  | error => simp only [takeEvent, hd, returnOnly_eq]

/-- An operation whose operands break their types is refused at its own meaning: the check of each operation that has a
bounded operand is the one `WellFormed` makes. -/
theorem exec_of_not_wellFormed (h : ¬ i.WellFormed) :
    exec i s = .next { s with result := some .refused, emitted := none } := by
  have hfalse : i.wellFormed = false := Bool.eq_false_iff.2 h
  cases i with
  | write | pktValid | payloadSet | payloadSetFlipped | payloadAppend | payloadAppendFlipped | totalBits | txTimeNs
  | rxEnd => exact ifTyped_of_false hfalse _ s
  | startRead | processEvents | isBusy | framePack | frameUnpack | crc8 | wordFlip | txDone | rxStart | rxWord =>
    exact absurd rfl h

end Encoding

/-! ## The statements -/

/-- Settles O1: the operand lists of the map read back, operation by operation. -/
theorem decodeOfEncode : Obligations.DecodeOfEncode := fun _ => decode_encode

/-- Settles O2: each reader accepts the operands of its operation's encoding and no others. -/
theorem decodedDescriptorIsEncoding : Obligations.DecodedDescriptorIsEncoding := fun _ _ _ =>
  decode_eq_ok_iff_encode.1

/-- Settles O3: each row is the encoding of its operation, on that operation's port. -/
theorem operationMapAsListed : Obligations.OperationMapAsListed := by
  intro p a t w c r s l ws n tc hp hn htc
  have hpacket : p.wellFormed = true := decide_eq_true hp
  have hcount : payloadCountOk n = true := decide_eq_true hn
  have htail : tailCountOk tc = true := decide_eq_true htc
  exact ⟨decode_of_encode hpacket rfl rfl, decode_of_encode rfl rfl rfl, decode_of_encode rfl rfl rfl,
    decode_of_encode rfl rfl rfl, decode_of_encode rfl rfl rfl, decode_of_encode rfl rfl rfl,
    decode_of_encode hpacket rfl rfl, decode_of_encode rfl rfl rfl, decode_of_encode rfl rfl rfl,
    decode_of_encode hpacket rfl rfl, decode_of_encode hpacket rfl rfl, decode_of_encode hpacket rfl rfl,
    decode_of_encode hpacket rfl rfl, decode_of_encode hcount rfl rfl, decode_of_encode hcount rfl rfl,
    decode_of_encode rfl rfl rfl, decode_of_encode rfl rfl rfl, decode_of_encode rfl rfl rfl,
    decode_of_encode htail rfl rfl⟩

/-- Settles O4: the four table words decoded. -/
theorem sampleWordsDecode : Obligations.SampleWordsDecode := ⟨rfl, rfl, rfl, rfl⟩

/-- Settles O5: none of the three kinds of descriptor decodes, so each port refuses it, and each meaning refuses operands
outside their types. -/
theorem reservedAndIllTypedRefused : Obligations.ReservedAndIllTypedRefused := by
  refine ⟨fun s d rest hr => ⟨fun low hs hd => ?polled, fun op hs hd => ?delivered⟩,
    fun i s => exec_of_not_wellFormed⟩
  case polled =>
    rw [step_of_poll_of_running hs hr]
    refine takePolling_of_not_decode fun i => ?_
    obtain hreserved | hport | htypes := hd
    · exact decode_ne_ok_of_reservedOp hreserved
    · exact decode_polling_ne_ok hport
    · exact decode_ne_ok_of_illTyped htypes
  case delivered =>
    rw [step_of_event_of_running hs hr]
    refine takeEvent_of_not_decode fun i => ?_
    obtain hreserved | hport | htypes := hd
    · exact decode_ne_ok_of_reservedOp hreserved
    · exact decode_event_ne_ok hport
    · exact decode_ne_ok_of_illTyped htypes

end Sys2Proof

/-! The byte/bit-order converter: what the serialiser puts on the wire, what the receiver makes of a bit stream, and that
the one undoes the other. The statements O30, O31 and O32. -/

namespace Sys2Proof.Machine

/-! ## Bits, most significant first (R63) -/

/-- Read from the last bit, the bits of a number are its bits from bit 0 on. -/
theorem reverse_bitsMsbFirst (n v : Nat) : (bitsMsbFirst n v).reverse = (List.range n).map v.testBit := by
  induction n with
  | zero => rfl
  | succ n ih => simp [bitsMsbFirst, ih, List.range_succ]

/-- Read from the first bit, they are its bits from bit `n - 1` down. -/
theorem bitsMsbFirst_eq_map (n v : Nat) : bitsMsbFirst n v = (List.range n).map fun k => v.testBit (n - 1 - k) := by
  induction n with
  | zero => rfl
  | succ n ih => simp [bitsMsbFirst, ih, List.range_succ_eq_map, Function.comp_def, Nat.sub_sub, Nat.add_comm]

/-- A number's first bits are those of the number without its last ones. -/
theorem bitsMsbFirst_add (m n v : Nat) : bitsMsbFirst (m + n) v = bitsMsbFirst m (v / 2 ^ n) ++ bitsMsbFirst n v := by
  induction m with
  | zero => simp [bitsMsbFirst]
  | succ m ih => rw [Nat.succ_add_eq_add_succ]; simp [bitsMsbFirst, ih, Nat.testBit_div_two_pow]

@[simp] theorem length_bitsMsbFirst (n v : Nat) : (bitsMsbFirst n v).length = n := by simp [bitsMsbFirst_eq_map]

@[simp] theorem length_wordBits (w : Word) : (wordBits w).length = 32 := length_bitsMsbFirst ..

@[simp] theorem length_byteBits (c : Byte) : (byteBits c).length = 8 := length_bitsMsbFirst ..

theorem wordBits_eq_map (w : Word) : wordBits w = (List.range 32).map fun k => w.getLsbD (31 - k) :=
  bitsMsbFirst_eq_map 32 w.toNat

theorem byteBits_eq_map (c : Byte) : byteBits c = (List.range 8).map fun k => c.getLsbD (7 - k) :=
  bitsMsbFirst_eq_map 8 c.toNat

@[simp] theorem length_flatMap_wordBits (ws : List Word) : (ws.flatMap wordBits).length = 32 * ws.length := by
  simp [List.length_flatMap, Nat.mul_comm]

/-- The byte on top of an image's last word is what the wire sees of it first (R84, R85). -/
theorem take_wordBits_checkWord (c : Byte) : (wordBits (c.setWidth 32 <<< 24)).take 8 = byteBits c := by
  have htop : (c.setWidth 32 <<< 24 : Word).toNat / 2 ^ 24 = c.toNat := by
    simp [Nat.shiftLeft_eq]; omega
  rw [wordBits, bitsMsbFirst_add 8 24, htop, List.take_left' (length_bitsMsbFirst ..), byteBits]

/-! ## The serialiser (R85) -/

/-- The bits the header counts are those of the frame word, the payload and the check byte (R82 to R85). -/
theorem serialize_txImage {p : Packet} (hp : p.payload.length ≤ 255) :
    serialize (txImage p) = (frameOf p :: p.payload).flatMap wordBits ++ byteBits (packetCheckByte p) := by
  have hheader : (BitVec.ofNat 32 (totalBits p.payload.length)).toNat = 32 * (frameOf p :: p.payload).length + 8 := by
    simp [totalBits]; omega
  have hrest : (frameOf p :: (p.payload ++ [(packetCheckByte p).setWidth 32 <<< 24])).flatMap wordBits =
      (frameOf p :: p.payload).flatMap wordBits ++ wordBits ((packetCheckByte p).setWidth 32 <<< 24) := by
    simp
  rw [txImage, serialize, hheader, hrest, ← length_flatMap_wordBits, List.take_length_add_append,
    take_wordBits_checkWord]

/-! ## The receiver (R86) -/

/-- The number a bit string spells has the string's last bit as bit 0. -/
theorem assembleBits_append_singleton (bits : List Bool) (b : Bool) :
    assembleBits (bits ++ [b]) = 2 * assembleBits bits + b.toNat := by
  simp [assembleBits]

/-- Bit `j` of the number a bit string spells is the string's bit `j` from its end, and 0 beyond its start. -/
theorem testBit_assembleBits (bits : List Bool) (j : Nat) :
    (assembleBits bits).testBit j = bits.reverse.getD j false := by
  induction bits using List.reverseRecOn generalizing j with
  | nil => simp [assembleBits]
  | append_singleton bits b ih =>
    rw [assembleBits_append_singleton, List.reverse_concat, ← Nat.bit_val]
    cases j with
    | zero => simp
    | succ j => rw [Nat.testBit_bit_succ, ih, List.getD_cons_succ]

/-- The same counted from the start of the string. -/
theorem testBit_assembleBits_eq_ite (bits : List Bool) (j : Nat) :
    (assembleBits bits).testBit j = if j < bits.length then bits.getD (bits.length - 1 - j) false else false := by
  rw [testBit_assembleBits]
  split
  case isTrue h => simp [h, show bits.length - 1 - j < bits.length by omega]
  case isFalse h => simp [Nat.le_of_not_lt h]

/-- Assembling gives back the low bits of the number they were taken from. -/
theorem assembleBits_bitsMsbFirst (n v : Nat) : assembleBits (bitsMsbFirst n v) = v % 2 ^ n := by
  refine Nat.eq_of_testBit_eq fun j => ?_
  rw [testBit_assembleBits, reverse_bitsMsbFirst, Nat.testBit_mod_two_pow]
  by_cases h : j < n <;> simp [h]

@[simp] theorem assembleBits_wordBits (w : Word) : assembleBits (wordBits w) = w.toNat :=
  (assembleBits_bitsMsbFirst ..).trans (Nat.mod_eq_of_lt w.isLt)

@[simp] theorem assembleBits_byteBits (c : Byte) : assembleBits (byteBits c) = c.toNat :=
  (assembleBits_bitsMsbFirst ..).trans (Nat.mod_eq_of_lt c.isLt)

@[simp] theorem length_assembleWords (m : Nat) (bits : List Bool) : (assembleWords m bits).length = m := by
  induction m generalizing bits with
  | zero => rfl
  | succ m ih => simp [assembleWords, ih]

/-- Word `k` is spelt by the 32 bits from bit `32 * k` on. -/
theorem getD_assembleWords {m k : Nat} (hk : k < m) (bits : List Bool) :
    (assembleWords m bits).getD k 0 = BitVec.ofNat 32 (assembleBits ((bits.drop (32 * k)).take 32)) := by
  induction m generalizing k bits with
  | zero => omega
  | succ m ih =>
    cases k with
    | zero => rfl
    | succ k => rw [assembleWords, List.getD_cons_succ, ih (by omega), List.drop_drop, Nat.mul_succ, Nat.add_comm 32]

/-- Each bit of each whole word stands where the stream has it. -/
theorem getLsbD_getD_assembleWords {m k j : Nat} {bits : List Bool} (hm : 32 * m ≤ bits.length) (hk : k < m)
    (hj : j < 32) : ((assembleWords m bits).getD k 0).getLsbD (31 - j) = bits.getD (32 * k + j) false := by
  have hlen : ((bits.drop (32 * k)).take 32).length = 32 := by simp; omega
  rw [getD_assembleWords hk, BitVec.getLsbD_ofNat, testBit_assembleBits_eq_ite, hlen, if_pos (by omega),
    show 32 - 1 - (31 - j) = j by omega]
  simp [hj, show 31 - j < 32 by omega]

/-- Whole words on the wire are assembled to the same words. -/
theorem assembleWords_flatMap_wordBits (ws : List Word) (bits : List Bool) :
    assembleWords ws.length (ws.flatMap wordBits ++ bits) = ws := by
  induction ws with
  | nil => rfl
  | cons w ws ih =>
    rw [List.flatMap_cons, List.append_assoc, List.length_cons, assembleWords, List.take_left' (length_wordBits w),
      List.drop_left' (length_wordBits w), ih, assembleBits_wordBits, BitVec.ofNat_toNat, BitVec.setWidth_eq]

/-- From whole words and fewer than 32 bits after them the receiver delivers the words, and the bits as the tail. -/
theorem receiveEvents_flatMap_wordBits (ws : List Word) {bits : List Bool} (hb : bits.length < 32) :
    receiveEvents (ws.flatMap wordBits ++ bits) =
      ws.map Instr.rxWord ++ [.rxEnd bits.length (BitVec.ofNat 32 (assembleBits bits))] := by
  have hlen : (ws.flatMap wordBits ++ bits).length = 32 * ws.length + bits.length := by
    rw [List.length_append, length_flatMap_wordBits]
  have hwords : (32 * ws.length + bits.length) / 32 = ws.length := by omega
  have htail : (32 * ws.length + bits.length) % 32 = bits.length := by omega
  simp only [receiveEvents, hlen, hwords, htail, assembleWords_flatMap_wordBits,
    List.drop_left' (length_flatMap_wordBits ws)]

/-- The events a packet's wire bits give: its words, then its check byte as a tail of 8 bits (R85, R86). -/
theorem receiveEvents_serialize_txImage {p : Packet} (hp : p.payload.length ≤ 255) :
    receiveEvents (serialize (txImage p)) =
      (frameOf p :: p.payload).map Instr.rxWord ++ [.rxEnd 8 ((packetCheckByte p).setWidth 32)] := by
  rw [serialize_txImage hp, receiveEvents_flatMap_wordBits _ (by simp), length_byteBits, assembleBits_byteBits,
    BitVec.ofNat_toNat]

/-! ## The statements -/

/-- Settles O30: the serialised image is the stream of R82, and each word and byte of it is written bit by bit. -/
theorem serializedImageIsPacketStream : Obligations.SerializedImageIsPacketStream := fun p hp => by
  rw [serialize_txImage hp, byteBits_eq_map, funext wordBits_eq_map]

/-- Settles O31: the words and the tail are numbers spelt by parts of the stream, and each bit of such a number is a bit
of its part. -/
theorem receiverAssemblesStream : Obligations.ReceiverAssemblesStream := by
  intro bits
  refine ⟨_, _, rfl, length_assembleWords .., fun k j hk hj => ?word, fun j hj => ?tail⟩
  case word => exact getLsbD_getD_assembleWords (Nat.mul_div_le ..) hk hj
  case tail =>
    have hlen : (bits.drop (32 * (bits.length / 32))).length = bits.length % 32 := by simp; omega
    rw [BitVec.getLsbD_ofNat, testBit_assembleBits_eq_ite, hlen, decide_eq_true hj, Bool.true_and]
    split
    case isTrue h =>
      have hindex : 32 * (bits.length / 32) + (bits.length % 32 - 1 - j) = bits.length - 1 - j := by omega
      simp [hindex]
    case isFalse => rfl

/-- Settles O32: the receiver assembles what the serialiser put on the wire. -/
theorem receiverUndoesSerializer : Obligations.ReceiverUndoesSerializer := fun _ => receiveEvents_serialize_txImage

end Sys2Proof.Machine

/-! A reception from its start to its poll: the events of a packet's wire bits store its words and its tail, and the poll
finds that they validate. The statement O33. -/

namespace Sys2Proof.Machine

/-- A read is in progress and RXBUF holds exactly the words of a list so far (R196). -/
structure Reading (ws : List Word) (s : State) : Prop where
  phase : s.phase = .readInProgress
  rxcount : s.rxcount = ws.length
  canonical : s.canonical Config.params .rxbuf = true
  held : ∀ k, k < ws.length → ws[k]? = some (s.word Config.params .rxbuf k)

/-- A read is finished and RXBUF holds exactly the words of a list, with a tail beside them (R199). -/
structure Received (ws : List Word) (tailCount : BitVec 5) (tailBits : Word) (s : State) : Prop where
  phase : s.phase = .readComplete
  rxcount : s.rxcount = ws.length
  tailCount : s.rxtailCount = tailCount
  tailBits : s.rxtailBits = tailBits
  held : ∀ k, k < ws.length → ws[k]? = some (s.word Config.params .rxbuf k)

section Reception

variable {s : State} {ws : List Word}

/-! ## Operations one after the other -/

theorem runOps_cons_of_exec {i : Instr} {t : State} (is : List Instr) (h : exec i s = .next t) :
    runOps (i :: is) s = runOps is t := by rw [runOps, h]

/-! ## The events of a reception, one by one -/

/-- `RX_START` starts with no word received (R193). -/
theorem exec_rxStart_reading (hp : s.phase = .waitingForReadStart) (hc : s.rxcount = 0)
    (hwf : s.canonical Config.params .rxbuf = true) : ∃ t, exec .rxStart s = .next t ∧ Reading [] t :=
  ⟨startReceive Config.params s.clearOutputs, if_pos hp, rfl, hc, hwf, by simp⟩

/-- A word that finds room in a read in progress is stored at `RXCOUNT`, and changes nothing else but the inter-word
clock and the outputs (R196). -/
theorem exec_rxWord_of_room {w : Word} (hp : s.phase = .readInProgress)
    (hroom : s.rxcount < Config.params.rxCapacityWords) :
    exec (.rxWord w) s = .next { s with
      rxbuf := s.rxbuf.write (s.atReset Config.params .rxbuf) s.rxcount w
      rxcount := s.rxcount + 1
      lastRxTime := s.now
      result := none
      emitted := none } :=
  (if_pos hp).trans (settle_eq_next.2 (receiveWord_store (s := s.clearOutputs) hroom))

/-- `RX_WORD` adds its word to those held, where it finds room (R196). -/
theorem Reading.exec_rxWord (h : Reading ws s) (w : Word) (hroom : ws.length < Config.params.rxCapacityWords) :
    ∃ t, exec (.rxWord w) s = .next t ∧ Reading (ws ++ [w]) t := by
  obtain ⟨hphase, hcount, hwf, hheld⟩ := h
  refine ⟨_, exec_rxWord_of_room hphase (hcount.trans_lt hroom), hphase, by simp [hcount], Memory.wf_write _ w hwf,
    fun k hk => ?_⟩
  have hword := Memory.read_write hwf s.rxcount k w
  simp only [State.word_rxbuf, State.atReset_rxbuf, State.buffer_rxbuf] at hword hheld ⊢
  rw [hword, hcount]
  by_cases hlast : k = ws.length
  · simp [hlast]
  · have hk' : k < ws.length := by simp at hk; omega
    rw [List.getElem?_append_left hk', hheld k hk', if_neg hlast]

/-- A run of words is added in its order (R196). -/
theorem Reading.runOps_rxWords {vs : List Word} (h : Reading ws s)
    (hroom : ws.length + vs.length ≤ Config.params.rxCapacityWords) (is : List Instr) :
    ∃ t, runOps (vs.map Instr.rxWord ++ is) s = runOps is t ∧ Reading (ws ++ vs) t := by
  induction vs generalizing ws s with
  | nil => exact ⟨s, rfl, by simpa using h⟩
  | cons v vs ih =>
    rw [List.length_cons] at hroom
    obtain ⟨u, hu, hreading⟩ := h.exec_rxWord v (by omega)
    obtain ⟨t, ht, hall⟩ := ih hreading (by simp; omega)
    exact ⟨t, (runOps_cons_of_exec _ hu).trans ht, by simpa using hall⟩

/-- `RX_END` puts its tail beside the words (R199). -/
theorem Reading.exec_rxEnd (h : Reading ws s) {tc : Nat} (htc : tc ≤ 31) (tb : Word) :
    ∃ t, exec (.rxEnd tc tb) s = .next t ∧ Received ws (BitVec.ofNat 5 tc) tb t := by
  obtain ⟨hphase, hcount, -, hheld⟩ := h
  exact ⟨finishReceive tc tb s.clearOutputs, (ifTyped_of_true (decide_eq_true htc) _ s).trans (if_pos hphase),
    rfl, hcount, rfl, rfl, hheld⟩

/-- The poll of a finished read returns to `IDLE`, and gives the words out when they validate (R168). -/
theorem Received.exec_processEvents {tc : BitVec 5} {tb : Word} (h : Received ws tc tb s)
    (hfit : ws.length ≤ Config.params.rxCapacityWords) (hvalid : verdict tc tb ws = (.readComplete, .none)) :
    ∃ t, exec .processEvents s = .next t ∧ t.phase = .idle ∧
      t.result = some (.status ⟨.readComplete, .none, ws, ws.length⟩) := by
  obtain ⟨hphase, hcount, rfl, rfl, hheld⟩ := h
  have hread : memReadRange Config.params .rxbuf s.clearOutputs 0 s.clearOutputs.rxcount = .ok ws :=
    (congrArg _ hcount).trans (memReadRange_of_words hfit hheld)
  have hpoll : pollExchange Config.params s.clearOutputs = resolveReceive Config.params s.clearOutputs := by
    simp only [pollExchange, State.clearOutputs_phase, hphase]
  have hresolve := hpoll.trans (resolveReceive_of_words hcount.symm hread)
  refine ⟨_, settle_eq_next.2 hresolve, rfl, ?_⟩
  simp [consume, hvalid, hcount]

/-! ## What a packet's own words are resolved to -/

/-- The frame word sent declares the length of the payload (R87, R111). -/
theorem declaredLength_frameOf {p : Packet} (hp : p.payload.length ≤ 255) :
    declaredLength (frameOf p) = p.payload.length := by
  rw [declaredLength, frameOf, byte0_packFrame, BitVec.toNat_ofNat, Nat.mod_eq_of_lt (by omega)]

/-- A check byte received as a tail is found in its low 8 bits (R86). -/
theorem byte0_setWidth (c : Byte) : byte0 (c.setWidth 32) = c := by
  ext j hj
  simp [byte0, hj, show j < 32 by omega]

/-- The words of a packet with its check byte validate: as many as declared, a whole byte of tail, and that byte the
check byte of the words (R120, R168). -/
theorem verdict_of_packet {p : Packet} (hp : p.payload.length ≤ 255) :
    verdict 8 ((packetCheckByte p).setWidth 32) (frameOf p :: p.payload) = (.readComplete, .none) := by
  simp [verdict, declaredLength_frameOf hp, byte0_setWidth, packetCheckByte]

end Reception

/-! ## The statement -/

/-- Settles O33: the start, the words, the tail and the poll, one after the other, each from the state the one before
leaves. -/
theorem sentPacketIsReceivedWhole : Obligations.SentPacketIsReceivedWhole := by
  intro p s hp hs hphase hcount hroom
  obtain ⟨started, hstart, hempty⟩ := exec_rxStart_reading hphase hcount hs.rxbufWf
  obtain ⟨filled, hwords, hreading⟩ := hempty.runOps_rxWords (vs := frameOf p :: p.payload) (by simpa using hroom)
    [.rxEnd 8 ((packetCheckByte p).setWidth 32), .processEvents]
  obtain ⟨ended, hend, hreceived⟩ := hreading.exec_rxEnd (tc := 8) (by decide) ((packetCheckByte p).setWidth 32)
  obtain ⟨polled, hpoll, hidle, hresult⟩ := hreceived.exec_processEvents hroom (verdict_of_packet hp)
  refine ⟨polled, ?_, hidle, hresult⟩
  rw [receiveEvents_serialize_txImage hp, List.append_assoc, runOps_cons_of_exec _ hstart]
  exact hwords.trans ((runOps_cons_of_exec _ hend).trans (runOps_cons_of_exec _ hpoll))

end Sys2Proof.Machine

/-! The frame header packer and the byte-order converter: a word is its four bytes, packing puts them together, and a
flip packs them in reverse. The statements O13, O14, O15 and O20. -/

namespace Sys2Proof.Machine

section BytesOfAWord

/-! ## The bytes of a word, as digits to the base 256 (R80) -/

theorem toNat_byte3 (w : Word) : (byte3 w).toNat = w.toNat / 2 ^ 24 % 2 ^ 8 := by
  rw [byte3, BitVec.extractLsb'_toNat, Nat.shiftRight_eq_div_pow]

theorem toNat_byte2 (w : Word) : (byte2 w).toNat = w.toNat / 2 ^ 16 % 2 ^ 8 := by
  rw [byte2, BitVec.extractLsb'_toNat, Nat.shiftRight_eq_div_pow]

theorem toNat_byte1 (w : Word) : (byte1 w).toNat = w.toNat / 2 ^ 8 % 2 ^ 8 := by
  rw [byte1, BitVec.extractLsb'_toNat, Nat.shiftRight_eq_div_pow]

theorem toNat_byte0 (w : Word) : (byte0 w).toNat = w.toNat % 2 ^ 8 := by
  rw [byte0, BitVec.extractLsb'_toNat, Nat.shiftRight_zero]

/-! ## Packing (R110, R112) -/

theorem toNat_append_eq_add {m n : Nat} (x : BitVec m) (y : BitVec n) :
    (x ++ y).toNat = x.toNat * 2 ^ n + y.toNat := by
  rw [BitVec.toNat_append, ← Nat.shiftLeft_add_eq_or_of_lt y.isLt, Nat.shiftLeft_eq]

/-- The shifted fields do not overlap, so packing is putting the four bytes side by side. -/
theorem packFrame_eq_append (b₃ b₂ b₁ b₀ : Byte) : packFrame b₃ b₂ b₁ b₀ = b₃ ++ b₂ ++ b₁ ++ b₀ := by
  refine BitVec.eq_of_getLsbD_eq (w := 8 + 8 + 8 + 8) fun j hj => ?_
  simp only [packFrame, BitVec.getLsbD_or, BitVec.getLsbD_shiftLeft, BitVec.getLsbD_setWidth, BitVec.getLsbD_append]
  grind

/-- The bytes packed are the digits of the word. -/
theorem toNat_packFrame (b₃ b₂ b₁ b₀ : Byte) : (packFrame b₃ b₂ b₁ b₀).toNat =
    b₃.toNat * 2 ^ 24 + b₂.toNat * 2 ^ 16 + b₁.toNat * 2 ^ 8 + b₀.toNat := by
  have happend : (packFrame b₃ b₂ b₁ b₀).toNat = (b₃ ++ b₂ ++ b₁ ++ b₀ : BitVec (8 + 8 + 8 + 8)).toNat :=
    congrArg BitVec.toNat (packFrame_eq_append ..)
  simp only [happend, toNat_append_eq_add]
  omega

@[simp] theorem byte3_packFrame (b₃ b₂ b₁ b₀ : Byte) : byte3 (packFrame b₃ b₂ b₁ b₀) = b₃ :=
  BitVec.eq_of_toNat_eq (by rw [toNat_byte3, toNat_packFrame]; omega)

@[simp] theorem byte2_packFrame (b₃ b₂ b₁ b₀ : Byte) : byte2 (packFrame b₃ b₂ b₁ b₀) = b₂ :=
  BitVec.eq_of_toNat_eq (by rw [toNat_byte2, toNat_packFrame]; omega)

@[simp] theorem byte1_packFrame (b₃ b₂ b₁ b₀ : Byte) : byte1 (packFrame b₃ b₂ b₁ b₀) = b₁ :=
  BitVec.eq_of_toNat_eq (by rw [toNat_byte1, toNat_packFrame]; omega)

/-- A word is its four bytes packed. -/
theorem packFrame_bytes (w : Word) : packFrame (byte3 w) (byte2 w) (byte1 w) (byte0 w) = w :=
  BitVec.eq_of_toNat_eq (by rw [toNat_packFrame, toNat_byte3, toNat_byte2, toNat_byte1, toNat_byte0]; omega)

/-- Words with the same bytes are the same word. -/
theorem eq_of_bytes_eq {v w : Word} (h₃ : byte3 v = byte3 w) (h₂ : byte2 v = byte2 w) (h₁ : byte1 v = byte1 w)
    (h₀ : byte0 v = byte0 w) : v = w := by
  rw [← packFrame_bytes v, h₃, h₂, h₁, h₀, packFrame_bytes]

theorem unpackFrame_packFrame (f : Frame) :
    unpackFrame (packFrame f.command f.recipientAddr f.senderAddr f.length) = f := by
  simp [unpackFrame, byte0_packFrame]

/-! ## The flip (R89, R121) -/

/-- A flip packs the bytes in reverse. -/
theorem flipWord_eq_packFrame (w : Word) : flipWord w = packFrame (byte0 w) (byte1 w) (byte2 w) (byte3 w) :=
  (packFrame_eq_append ..).symm

@[simp] theorem byte3_flipWord (w : Word) : byte3 (flipWord w) = byte0 w := by
  rw [flipWord_eq_packFrame, byte3_packFrame]

@[simp] theorem byte2_flipWord (w : Word) : byte2 (flipWord w) = byte1 w := by
  rw [flipWord_eq_packFrame, byte2_packFrame]

@[simp] theorem byte1_flipWord (w : Word) : byte1 (flipWord w) = byte2 w := by
  rw [flipWord_eq_packFrame, byte1_packFrame]

@[simp] theorem byte0_flipWord (w : Word) : byte0 (flipWord w) = byte3 w := by
  rw [flipWord_eq_packFrame, byte0_packFrame]

/-- Byte `k` of the flipped word is byte `3 - k` of the word. -/
theorem extractLsb'_flipWord {k : Nat} (hk : k < 4) (w : Word) :
    (flipWord w).extractLsb' (8 * k) 8 = w.extractLsb' (8 * (3 - k)) 8 := by
  match k with
  | 0 => exact byte0_flipWord w
  | 1 => exact byte1_flipWord w
  | 2 => exact byte2_flipWord w
  | 3 => exact byte3_flipWord w

/-- A bit keeps its place within its byte. -/
theorem getLsbD_flipWord {k j : Nat} (hk : k < 4) (hj : j < 8) (w : Word) :
    (flipWord w).getLsbD (8 * k + j) = w.getLsbD (8 * (3 - k) + j) := by
  simpa [hj] using congrArg (·.getLsbD j) (extractLsb'_flipWord hk w)

end BytesOfAWord

/-! ## The statements -/

/-- Settles O13: the result is the packed word, whose value is read off its bytes. -/
theorem framePackResult : Obligations.FramePackResult := fun _ _ _ _ _ => ⟨_, rfl, toNat_packFrame ..⟩

/-- Settles O14: each field is a byte of the word, and the top byte has nothing above it. -/
theorem frameUnpackResult : Obligations.FrameUnpackResult := by
  intro w s
  have htop : w.toNat / 2 ^ 24 % 2 ^ 8 = w.toNat / 2 ^ 24 := by omega
  exact ⟨_, rfl, (toNat_byte3 w).trans htop, toNat_byte2 w, toNat_byte1 w, toNat_byte0 w⟩

/-- Settles O15: a packed word has the bytes it was packed from, and a word is its bytes packed. -/
theorem frameRoundTrip : Obligations.FrameRoundTrip := by
  constructor
  · intro f s
    have hunpack : exec (.frameUnpack (packFrame f.command f.recipientAddr f.senderAddr f.length)) s = .next { s with
        result := some (.frame (unpackFrame (packFrame f.command f.recipientAddr f.senderAddr f.length)))
        emitted := none } := rfl
    exact ⟨_, rfl, by rw [hunpack, unpackFrame_packFrame]⟩
  · intro w s
    have hpack : exec (.framePack (byte3 w) (byte2 w) (byte1 w) (byte0 w)) s = .next { s with
        result := some (.word (packFrame (byte3 w) (byte2 w) (byte1 w) (byte0 w))), emitted := none } := rfl
    exact ⟨unpackFrame w, rfl, hpack.trans (by rw [packFrame_bytes])⟩

/-- Settles O20: the result is the flipped word, bit by bit. -/
theorem wordFlipResult : Obligations.WordFlipResult := fun w _ =>
  ⟨_, rfl, fun _ _ hk hj => getLsbD_flipWord hk hj w⟩

end Sys2Proof.Machine

/-! The check byte turns lists put together and words XORed into an XOR of check bytes, so its value on any list is known
from its values on single words. The statements O17, O18, O19 and O21. -/

namespace Sys2Proof.Machine

section CheckByte

/-! ## Bytes under XOR -/

@[simp] theorem byte3_xor (v w : Word) : byte3 (v ^^^ w) = byte3 v ^^^ byte3 w := BitVec.extractLsb'_xor
@[simp] theorem byte2_xor (v w : Word) : byte2 (v ^^^ w) = byte2 v ^^^ byte2 w := BitVec.extractLsb'_xor
@[simp] theorem byte1_xor (v w : Word) : byte1 (v ^^^ w) = byte1 v ^^^ byte1 w := BitVec.extractLsb'_xor
@[simp] theorem byte0_xor (v w : Word) : byte0 (v ^^^ w) = byte0 v ^^^ byte0 w := BitVec.extractLsb'_xor

/-! ## The check byte of a list (R117, R118) -/

/-- The bytes may be folded in one by one. -/
theorem checkByte_eq_foldl_bytes (ws : List Word) :
    checkByte ws = (ws.flatMap fun w => [byte3 w, byte2 w, byte1 w, byte0 w]).foldl (fun c b => c ^^^ b) 0 := by
  rw [List.foldl_flatMap]; rfl

theorem checkByte_singleton (w : Word) : checkByte [w] = byte3 w ^^^ byte2 w ^^^ byte1 w ^^^ byte0 w := by
  simp [checkByte, foldWord]

theorem foldWord_eq_xor (c : Byte) (w : Word) : foldWord c w = c ^^^ checkByte [w] := by
  simp only [checkByte_singleton, foldWord, BitVec.xor_assoc]

/-- The byte a fold starts from is XORed with the check byte of its words. -/
theorem foldl_foldWord (ws : List Word) (c : Byte) : ws.foldl foldWord c = c ^^^ checkByte ws := by
  induction ws generalizing c with
  | nil => simp [checkByte]
  | cons w ws ih =>
    have hcheck : checkByte (w :: ws) = checkByte [w] ^^^ checkByte ws := ih (foldWord 0 w)
    rw [List.foldl_cons, ih, foldWord_eq_xor, hcheck, BitVec.xor_assoc]

theorem checkByte_append (ws vs : List Word) : checkByte (ws ++ vs) = checkByte ws ^^^ checkByte vs := by
  rw [checkByte, List.foldl_append, foldl_foldWord vs, ← checkByte]

theorem checkByte_cons (w : Word) (ws : List Word) : checkByte (w :: ws) = checkByte [w] ^^^ checkByte ws :=
  checkByte_append [w] ws

theorem checkByte_perm {ws vs : List Word} (h : ws.Perm vs) : checkByte ws = checkByte vs := by
  induction h with
  | nil => rfl
  | cons w _ ih => rw [checkByte_cons w, ih, ← checkByte_cons]
  | swap v w ws =>
    rw [checkByte_cons w (v :: ws), checkByte_cons v ws, checkByte_cons v (w :: ws), checkByte_cons w ws]
    ac_rfl
  | trans _ _ ih₁ ih₂ => exact ih₁.trans ih₂

/-! ## The check byte of changed words (R118, R119, R122) -/

theorem checkByte_xor (w v : Word) : checkByte [w ^^^ v] = checkByte [w] ^^^ checkByte [v] := by
  simp only [checkByte_singleton, byte3_xor, byte2_xor, byte1_xor, byte0_xor]
  ac_rfl

/-- XORing a word into one word of a list XORs its check byte into the list's. -/
theorem checkByte_xor_at (ws vs : List Word) (w v : Word) :
    checkByte (ws ++ (w ^^^ v) :: vs) = checkByte (ws ++ w :: vs) ^^^ checkByte [v] := by
  rw [checkByte_append, checkByte_append, checkByte_cons (w ^^^ v), checkByte_cons w vs, checkByte_xor]
  ac_rfl

theorem checkByte_flipWord (w : Word) : checkByte [flipWord w] = checkByte [w] := by
  simp only [checkByte_singleton, byte3_flipWord, byte2_flipWord, byte1_flipWord, byte0_flipWord]
  ac_rfl

theorem checkByte_map_flipWord (ws : List Word) : checkByte (ws.map flipWord) = checkByte ws := by
  induction ws with
  | nil => rfl
  | cons w ws ih => rw [List.map_cons, checkByte_cons, ih, checkByte_flipWord, ← checkByte_cons]

/-- The XOR of words has the check byte of their list. -/
theorem checkByte_foldl_xor (ws : List Word) (v : Word) :
    checkByte [ws.foldl (fun a w => a ^^^ w) v] = checkByte (v :: ws) := by
  induction ws generalizing v with
  | nil => rfl
  | cons w ws ih =>
    rw [List.foldl_cons, ih, checkByte_cons (v ^^^ w), checkByte_xor, checkByte_cons v (w :: ws),
      checkByte_cons w ws, BitVec.xor_assoc]

/-- A word of one bit has a check byte of one bit, at the bit's place in its byte. -/
theorem checkByte_bit : ∀ i < 32, checkByte [((1 <<< i : Nat) : Word)] = ((1 <<< (i % 8) : Nat) : Byte) := by
  decide

/-- Two bits at one place in their bytes cancel. -/
theorem xor_checkByte_bit_bit {i j : Nat} (hi : i < 32) (hj : j < 32) (h : i % 8 = j % 8) (c : Byte) :
    c ^^^ checkByte [((1 <<< i : Nat) : Word)] ^^^ checkByte [((1 <<< j : Nat) : Word)] = c := by
  rw [checkByte_bit i hi, checkByte_bit j hj, h, BitVec.xor_assoc, BitVec.xor_self, BitVec.xor_zero]

/-! ## The flip as a linear involution (R122) -/

theorem flipWord_flipWord (w : Word) : flipWord (flipWord w) = w := by apply eq_of_bytes_eq <;> simp

theorem flipWord_xor (a b : Word) : flipWord (a ^^^ b) = flipWord a ^^^ flipWord b := by
  apply eq_of_bytes_eq <;> simp

end CheckByte

/-! ## The statements -/

/-- Settles O17: the model folds word by word, the rule byte by byte. -/
theorem checkByteResult : Obligations.CheckByteResult := fun ws s => by
  have hexec : exec (.crc8 ws) s = .next { s with result := some (.byte (checkByte ws)), emitted := none } := rfl
  rw [hexec, checkByte_eq_foldl_bytes]
  rfl

/-- Settles O18: an XOR into one word changes the check byte by the check byte of what is XORed in, which for one bit is
one bit, and for two bits at one place nothing. -/
theorem checkByteLaws : Obligations.CheckByteLaws := by
  refine ⟨checkByte_append, fun _ _ => checkByte_perm, checkByte_flipWord, checkByte_xor,
    fun A B w i hi => ?oneBit, fun A B w i j hi hj _ h => ?sameWord, fun A B C w v i j hi hj h => ?twoWords⟩
  case oneBit => rw [checkByte_xor_at, checkByte_bit i hi]
  case sameWord => rw [checkByte_xor_at, checkByte_xor_at, xor_checkByte_bit_bit hi hj h]
  case twoWords =>
    have hinner := checkByte_xor_at (A ++ w :: B) C v ((1 <<< j : Nat) : Word)
    simp only [List.append_assoc, List.cons_append] at hinner
    rw [checkByte_xor_at, hinner, xor_checkByte_bit_bit hj hi h.symm]

/-- Settles O19: the fold of the XOR is its check byte as a list of one word, and the 0 it starts from adds nothing. -/
theorem wordFoldGivesCheckByte : Obligations.WordFoldGivesCheckByte := fun ws =>
  calc
    _ = checkByte [ws.foldl (fun a w => a ^^^ w) 0] := (checkByte_singleton _).symm
    _ = checkByte (0 :: ws) := checkByte_foldl_xor ws 0
    _ = checkByte ws := rfl

/-- Settles O21: the flip reverses the bytes of each word and does nothing else, and the check byte is the XOR of them
all. -/
theorem wordFlipLaws : Obligations.WordFlipLaws := ⟨flipWord_flipWord, checkByte_map_flipWord, flipWord_xor⟩

end Sys2Proof.Machine

/-! The codec operations that check an operand: `PKT_VALID`, the payload operations, and the bit count and its time. For
operands of their types each returns its value, and otherwise it is refused. The statements O16 and O22 to O28. -/

namespace Sys2Proof.Machine

section CheckedOperations

variable {p : Packet} {n : Nat}

/-! ## Valid packets (R115, R116) -/

theorem packetValid_eq (p : Packet) :
    packetValid p = decide (p.command ≠ 0xFF ∧ p.length.toNat = p.payload.length) := (Bool.decide_and ..).symm

/-- With a matching length only the sentinel makes a packet invalid. -/
theorem packetValid_of_length (h : p.length.toNat = p.payload.length) :
    packetValid p = decide (p.command ≠ 0xFF) := by simp [packetValid_eq, h]

theorem exec_pktValid (hp : p.payload.length ≤ 255) (s : State) :
    exec (.pktValid p) s = .next { s with result := some (.bit (packetValid p)), emitted := none } :=
  ifTyped_of_true (decide_eq_true hp) _ s

/-! ## Payloads (R123 to R127) -/

theorem payloadResult_of_le {ws : List Word} (h : ws.length ≤ 255) (p : Packet) :
    payloadResult p ws = .packet true { p with payload := ws, length := BitVec.ofNat 8 ws.length } :=
  if_neg (Nat.not_lt.2 h)

theorem payloadResult_of_gt {ws : List Word} (h : ¬ ws.length ≤ 255) (p : Packet) :
    payloadResult p ws = .packet false p := if_pos (Nat.lt_of_not_le h)

theorem payloadResult_eq_ite (p : Packet) (ws : List Word) : payloadResult p ws =
    if ws.length ≤ 255 then .packet true { p with payload := ws, length := BitVec.ofNat 8 ws.length }
    else .packet false p := by
  split
  case isTrue h => exact payloadResult_of_le h p
  case isFalse h => exact payloadResult_of_gt h p

/-- Whatever payload is asked for, the header but its length is kept, and a success is a Packet whose length matches. -/
theorem payloadResult_keeps_header (p : Packet) (ws : List Word) : ∃ (ok : Bool) (q : Packet),
    payloadResult p ws = .packet ok q ∧
    q.command = p.command ∧ q.recipientAddr = p.recipientAddr ∧ q.senderAddr = p.senderAddr ∧
    (ok = true → q.payload.length ≤ 255 ∧ q.length.toNat = q.payload.length) := by
  by_cases h : ws.length ≤ 255
  · exact ⟨_, _, payloadResult_of_le h p, rfl, rfl, rfl, fun _ => ⟨h, Nat.mod_eq_of_lt (Nat.lt_succ_of_le h)⟩⟩
  · exact ⟨_, _, payloadResult_of_gt h p, rfl, rfl, rfl, nofun⟩

section

variable (hp : p.payload.length ≤ 255) (ws : List Word) (s : State)

include hp

theorem exec_payloadSet : exec (.payloadSet p ws) s =
    .next { s with result := some (payloadResult p ws), emitted := none } :=
  ifTyped_of_true (decide_eq_true hp) _ s

theorem exec_payloadSetFlipped : exec (.payloadSetFlipped p ws) s =
    .next { s with result := some (payloadResult p (ws.map flipWord)), emitted := none } :=
  ifTyped_of_true (decide_eq_true hp) _ s

theorem exec_payloadAppend : exec (.payloadAppend p ws) s =
    .next { s with result := some (payloadResult p (p.payload ++ ws)), emitted := none } :=
  ifTyped_of_true (decide_eq_true hp) _ s

theorem exec_payloadAppendFlipped : exec (.payloadAppendFlipped p ws) s =
    .next { s with result := some (payloadResult p (p.payload ++ ws.map flipWord)), emitted := none } :=
  ifTyped_of_true (decide_eq_true hp) _ s

/-- Each payload operation gives the packet some payload. -/
theorem exec_payload_operation {i : Instr} (hi : i ∈ [Instr.payloadSet p ws, .payloadSetFlipped p ws,
    .payloadAppend p ws, .payloadAppendFlipped p ws]) : ∃ vs : List Word,
      exec i s = .next { s with result := some (payloadResult p vs), emitted := none } := by
  simp only [List.mem_cons, List.not_mem_nil, or_false] at hi
  obtain rfl | rfl | rfl | rfl := hi
  · exact ⟨_, exec_payloadSet hp ws s⟩
  · exact ⟨_, exec_payloadSetFlipped hp ws s⟩
  · exact ⟨_, exec_payloadAppend hp ws s⟩
  · exact ⟨_, exec_payloadAppendFlipped hp ws s⟩

end

/-! ## Bit counts and their time (R128, R130) -/

theorem totalBits_le (hn : n ≤ 255) : totalBits n ≤ 8200 := by unfold totalBits; omega

/-- The bound of R130 on the time of one bit. -/
theorem nsPerBit_lt (cfg : Params) : cfg.nsPerBit < 2 ^ 50 := by
  have := cfg.nsPerBitLessOne.isLt
  unfold Params.nsPerBit
  omega

/-- The time of the longest packet fits in 64 bits. -/
theorem txTimeNs_lt (hn : n ≤ 255) (cfg : Params) : txTimeNs cfg n < 2 ^ 64 :=
  calc totalBits n * cfg.nsPerBit
    _ ≤ 8200 * 2 ^ 50 := Nat.mul_le_mul (totalBits_le hn) (nsPerBit_lt cfg).le
    _ < 2 ^ 64 := by norm_num

theorem exec_totalBits (hn : n ≤ 255) (s : State) : exec (.totalBits n) s =
    .next { s with result := some (.word (BitVec.ofNat 32 (totalBits n))), emitted := none } :=
  ifTyped_of_true (decide_eq_true hn) _ s

theorem exec_txTimeNs (hn : n ≤ 255) (s : State) : exec (.txTimeNs n) s = .next { s with
    result := some (.nanoseconds (BitVec.ofNat 64 (txTimeNs Config.params n))), emitted := none } :=
  ifTyped_of_true (decide_eq_true hn) _ s

theorem not_payloadCountOk (hn : 255 < n) : ¬ payloadCountOk n = true := by simpa [payloadCountOk] using hn

end CheckedOperations

/-! ## The statements -/

/-- Settles O16: the operation returns the packet's validity. -/
theorem packetValidResult : Obligations.PacketValidResult := fun p s hp => by
  rw [exec_pktValid hp, packetValid_eq]

/-- Settles O22: the payload is the list of words. -/
theorem payloadSetResult : Obligations.PayloadSetResult := fun p ws s hp => by
  rw [exec_payloadSet hp, payloadResult_eq_ite]

/-- Settles O23: the payload is the list of words, each flipped, which is as long. -/
theorem payloadSetFlippedResult : Obligations.PayloadSetFlippedResult := fun p ws s hp => by
  rw [exec_payloadSetFlipped hp, payloadResult_eq_ite, List.length_map]

/-- Settles O24: the payload is the old one and the words. -/
theorem payloadAppendResult : Obligations.PayloadAppendResult := fun p ws s hp => by
  rw [exec_payloadAppend hp, payloadResult_eq_ite, List.length_append]

/-- Settles O25: the payload is the old one, not flipped, and the words, each flipped. -/
theorem payloadAppendFlippedResult : Obligations.PayloadAppendFlippedResult := fun p ws s hp => by
  rw [exec_payloadAppendFlipped hp, payloadResult_eq_ite, List.length_append, List.length_map]

/-- Settles O26: what one payload keeps and gives, whichever of the four operations asks for it. -/
theorem payloadOperationsKeepHeader : Obligations.PayloadOperationsKeepHeader := by
  intro p ws s hp i hi
  obtain ⟨vs, hexec⟩ := exec_payload_operation hp ws s hi
  obtain ⟨ok, q, hresult, hcommand, hrecipient, hsender, hsuccess⟩ := payloadResult_keeps_header p vs
  refine ⟨ok, q, _, hexec, congrArg some hresult, hcommand, hrecipient, hsender, fun hok => ?_⟩
  obtain ⟨hq, hlength⟩ := hsuccess hok
  exact ⟨hq, by rw [exec_pktValid hq, packetValid_of_length hlength]⟩

/-- Settles O27: the bit count fits in 32 bits, and a count above 255 breaks the operand's type. -/
theorem totalBitsResult : Obligations.TotalBitsResult := by
  refine fun n s => ⟨fun hn => ⟨_, exec_totalBits hn s, ?_⟩, fun hn => exec_of_not_wellFormed (not_payloadCountOk hn)⟩
  have hbits := totalBits_le hn
  exact Nat.mod_eq_of_lt (by omega)

/-- Settles O28: the product fits in 64 bits, and a count above 255 breaks the operand's type. -/
theorem txTimeResult : Obligations.TxTimeResult := fun _ s =>
  ⟨fun hn => ⟨_, exec_txTimeNs hn s, Nat.mod_eq_of_lt (txTimeNs_lt hn _)⟩,
    fun hn => exec_of_not_wellFormed (not_payloadCountOk hn)⟩

end Sys2Proof.Machine

/-! The beginning of an exchange: when `WRITE` and `START_READ` are turned away and what they leave when they are not,
and that TXBUF then holds the image sent. The statements O34, O35, O36 and O45. -/

namespace Sys2Proof.Machine

section BeginningOfAnExchange

variable {cfg : Params} {p : Packet} {a : Bool} {o : Timeout} {s t : State}

/-! ## `WRITE` (R150, R151, R154) -/

theorem not_wellFormed_write (hp : 255 < p.payload.length) : ¬ (Instr.write p a o).WellFormed := by
  simpa [Instr.WellFormed, Instr.wellFormed, Packet.wellFormed] using hp

/-- A busy block and a line that is not quiet each turn a `WRITE` away. -/
theorem exec_write_of_turned_away (hp : p.payload.length ≤ 255) (h : s.phase ≠ .idle ∨ s.lineLow = true) :
    exec (.write p a o) s = .next { s with result := some (.bit false), emitted := none } := by
  have htyped : exec (.write p a o) s = _ := ifTyped_of_true (decide_eq_true hp) _ s
  rw [htyped]
  by_cases hbusy : s.phase = .idle
  · have hlow : s.lineLow = true := h.resolve_left (not_not_intro hbusy)
    simp [busy, hbusy, hlow, returnOnly_eq]
  · simp [busy, hbusy, returnOnly_eq]

/-- A `WRITE` that is not turned away leaves the packet's image in TXBUF, the registers set for it, and the PHY told to
send it (R150, R155). -/
theorem exec_write_begins (a : Bool) (o : Timeout) (hp : p.payload.length ≤ 255) (hidle : s.phase = .idle)
    (hquiet : s.lineLow = false) (hwf : s.canonical Config.params .txbuf = true) : ∃ m : Memory,
      exec (.write p a o) s = .next { s with
        txbuf := m
        txlen := BitVec.ofNat 9 (p.payload.length + 3)
        autostart := a
        readTimeout := o
        rxcount := 0
        rxtailCount := 0
        rxtailBits := 0
        fail := .none
        killTime := s.now + writeTimeoutUs Config.params p.payload.length
        phase := .writeInProgress
        txActive := true
        emitted := some (.txStart (txImage p))
        result := some (.bit true) } ∧
      m.wf (s.atReset Config.params .txbuf) = true ∧
      ∀ k, m.read (s.atReset Config.params .txbuf) k =
        if k < p.payload.length + 3 then (txImage p).getD k 0 else s.word Config.params .txbuf k := by
  obtain ⟨m, hbegin, hm, -, hread⟩ := beginWrite_spec Config.params p a o s.clearOutputs hp hwf
  exact ⟨m, (exec_write_of_quiet hp hidle hquiet).trans (settle_eq_next.2 hbegin), hm, hread⟩

/-- Only a `WRITE` of a Packet in `IDLE` on a quiet line returns `true`. -/
theorem accepted_of_exec_write_true (h : exec (.write p a o) s = .next t) (hr : t.result = some (.bit true)) :
    p.payload.length ≤ 255 ∧ s.phase = .idle ∧ s.lineLow = false := by
  cases exec_cases h with
  | wrote _ _ _ _ hp hidle hquiet => exact ⟨hp, hidle, hquiet⟩
  | returned _ r hturned =>
    obtain hfalse | ⟨hwrite, -⟩ := hturned
    · exact absurd (Option.some.inj hr) hfalse
    · exact absurd rfl (hwrite p a o)
  | ignored => cases hr

/-- Where the first words of TXBUF are those of a packet's image and TXLEN is its length, the words below TXLEN are the
image (R152). -/
theorem memReadRange_of_image (hp : p.payload.length ≤ 255) (hlen : t.txlen = BitVec.ofNat 9 (p.payload.length + 3))
    (hword : ∀ k < p.payload.length + 3, t.word cfg .txbuf k = (txImage p).getD k 0) :
    memReadRange cfg .txbuf t 0 t.txlen.toNat = .ok (txImage p) := by
  have hlenNat : t.txlen.toNat = (txImage p).length := by
    rw [hlen, BitVec.toNat_ofNat, Nat.mod_eq_of_lt (by omega), txImage_length]
  rw [hlenNat]
  refine memReadRange_of_words (by simp [bufferSize]; omega) fun k hk => ?_
  rw [hword k (txImage_length p ▸ hk), List.getElem?_eq_getElem hk, List.getD_eq_getElem _ _ hk]

/-! ## The ends of an image (R84) -/

theorem head?_txImage (p : Packet) : (txImage p).head? = some (BitVec.ofNat 32 (totalBits p.payload.length)) := rfl

theorem getLast?_txImage (p : Packet) : (txImage p).getLast? = some ((packetCheckByte p).setWidth 32 <<< 24) := by
  simp [txImage, List.getLast?_cons]

/-- A byte put above 24 bits is the top byte of the word. -/
theorem byte3_shiftLeft (c : Byte) : byte3 (c.setWidth 32 <<< 24) = c := by
  ext j hj
  simp [byte3, hj, show 24 + j < 32 by omega]

/-- Those 24 bits are zero. -/
theorem extractLsb'_shiftLeft (w : Word) : (w <<< 24).extractLsb' 0 24 = 0 := by
  ext j hj
  simp [hj]

/-! ## `START_READ` (R157) -/

theorem exec_startRead_of_busy (h : s.phase ≠ .idle) :
    exec (.startRead o) s = .next { s with result := some (.bit false), emitted := none } :=
  if_pos (decide_eq_true h)

theorem exec_startRead_begins (o : Timeout) (h : s.phase = .idle) : exec (.startRead o) s = .next { s with
    rxcount := 0
    rxtailCount := 0
    rxtailBits := 0
    fail := .none
    killTime := s.now + o.toNat
    phase := .waitingForReadStart
    rxArmed := true
    emitted := some .rxArm
    result := some (.bit true) } := if_neg (by simp [busy, h])

/-- Only a `START_READ` in `IDLE` returns `true`. -/
theorem idle_of_exec_startRead_true (h : exec (.startRead o) s = .next t) (hr : t.result = some (.bit true)) :
    s.phase = .idle := by
  by_contra hbusy
  cases (exec_startRead_of_busy hbusy).symm.trans h
  cases hr

end BeginningOfAnExchange

/-! ## The statements -/

/-- Settles O34: ill-typed, turned away, or begun. -/
theorem writeOutcome : Obligations.WriteOutcome := fun _ a o _ =>
  ⟨fun hp => exec_of_not_wellFormed (not_wellFormed_write hp), exec_write_of_turned_away, exec_write_begins a o⟩

/-- Settles O35: the write was begun, and its image is read back word by word. -/
theorem bufferedImageIsSent : Obligations.BufferedImageIsSent := by
  intro p a o s t hwf h hr
  obtain ⟨hp, hidle, hquiet⟩ := accepted_of_exec_write_true h hr
  obtain ⟨m, hbegin, -, hread⟩ := exec_write_begins a o hp hidle hquiet hwf
  cases hbegin.symm.trans h
  exact ⟨txImage p, rfl, memReadRange_of_image hp rfl fun k hk => (hread k).trans (if_pos hk), txImage_length p,
    head?_txImage p, _, getLast?_txImage p, byte3_shiftLeft _, extractLsb'_shiftLeft _⟩

/-- Settles O36: turned away, or begun. -/
theorem startReadOutcome : Obligations.StartReadOutcome := fun o _ =>
  ⟨exec_startRead_of_busy, exec_startRead_begins o⟩

/-- Settles O45: of `START_READ` and `WRITE`, each returns `true` where it begins an exchange and nowhere else. -/
theorem isBusyResult : Obligations.IsBusyResult := by
  refine fun s => ⟨rfl, fun o => ⟨?_, fun hidle => ⟨_, exec_startRead_begins o hidle, rfl⟩⟩,
    fun p a o hp hquiet hwf => ⟨?_, fun hidle => ?_⟩⟩
  · rintro ⟨t, h, hr⟩
    exact idle_of_exec_startRead_true h hr
  · rintro ⟨t, h, hr⟩
    obtain ⟨-, hidle, -⟩ := accepted_of_exec_write_true h hr
    exact hidle
  · obtain ⟨m, hbegin, -⟩ := exec_write_begins a o hp hidle hquiet hwf
    exact ⟨_, hbegin, rfl⟩

end Sys2Proof.Machine

/-! The poll of an exchange, phase by phase: what `PROCESS_EVENTS` reports and when it returns the block to `IDLE`. The
statements O37 to O43 and O60. -/

namespace Sys2Proof.Machine

/-- The Status a finished receive of some words, with a tail beside them, is resolved to: the checks of R168 in their
order. -/
def receiveStatus (tailCount : BitVec 5) (tailBits : Word) (ws : List Word) : Status :=
  if ws.length = 0 then emptyStatus .readFailed .missingData
  else if ws.length < declaredLength (ws.headD 0) + 1 then emptyStatus .readFailed .missingData
  else if tailCount ≠ 8 then emptyStatus .readFailed .crcInvalid
  else if checkByte ws ≠ byte0 tailBits then emptyStatus .readFailed .crcInvalid
  else ⟨.readComplete, .none, ws, ws.length⟩

section PollOfAnExchange

variable {cfg : Params} {s t : State} {ws : List Word}

/-! ## A poll goes by the phase it finds (R160) -/

/-- A poll with no fault is a next state of `PROCESS_EVENTS`. -/
theorem exec_processEvents_of_poll (h : pollExchange Config.params s.clearOutputs = .ok t) :
    exec .processEvents s = .next t := settle_eq_next.2 h

theorem pollExchange_of_idle (hp : s.phase = .idle) :
    pollExchange cfg s = .ok (s.answer (.status (emptyStatus .idle .none))) := by
  simp only [pollExchange, hp]

theorem pollExchange_of_writeInProgress (hp : s.phase = .writeInProgress) :
    pollExchange cfg s = .ok (pollInProgress (killTimePassed s) .writeFailed s) := by
  simp only [pollExchange, hp]

theorem pollExchange_of_waitingForReadStart (hp : s.phase = .waitingForReadStart) :
    pollExchange cfg s = .ok (pollInProgress (killTimePassed s) .readFailed s) := by
  simp only [pollExchange, hp]

theorem pollExchange_of_readInProgress (hp : s.phase = .readInProgress) :
    pollExchange cfg s = .ok (pollInProgress (killTimePassed s || wordGapPassed cfg s) .readFailed s) := by
  simp only [pollExchange, hp]

theorem pollExchange_of_writeComplete (hp : s.phase = .writeComplete) :
    pollExchange cfg s = .ok (consume (emptyStatus .writeComplete .none) s) := by
  simp only [pollExchange, hp]

theorem pollExchange_of_overflow (hp : s.phase = .readFailed) (hf : s.fail = .bufferOverflow) :
    pollExchange cfg s = .ok (consume (emptyStatus .readFailed .bufferOverflow) { s with fail := .none }) := by
  simp only [pollExchange, hp, hf, if_true]

theorem pollExchange_of_readComplete (hp : s.phase = .readComplete) :
    pollExchange cfg s = resolveReceive cfg s := by
  simp only [pollExchange, hp]

/-! ## The bounds are passed strictly (R165 to R167) -/

theorem killTimePassed_iff : killTimePassed s = true ↔ s.killTime < s.now := decide_eq_true_iff

theorem wordGapPassed_iff :
    wordGapPassed cfg s = true ↔ s.lastRxTime + cfg.interWordReadTimeoutUs < s.now := decide_eq_true_iff

/-! ## The polls of `PROCESS_EVENTS` -/

/-- Past a bound the PHY is stopped and the exchange ends with `TIMEOUT` (R165 to R167). -/
theorem exec_processEvents_of_passed {passed : Bool} {failed : Phase}
    (hpoll : pollExchange Config.params s.clearOutputs = .ok (pollInProgress passed failed s.clearOutputs))
    (h : passed = true) : exec .processEvents s = .next { s with
      phase := .idle, txActive := false, rxArmed := false, emitted := some .abort
      result := some (.status ⟨failed, .timeout, [], 0⟩) } :=
  exec_processEvents_of_poll (hpoll.trans (congrArg _ (if_pos h)))

/-- Short of its bound a phase is reported and left (R162). -/
theorem exec_processEvents_of_not_passed {passed : Bool} {failed : Phase}
    (hpoll : pollExchange Config.params s.clearOutputs = .ok (pollInProgress passed failed s.clearOutputs))
    (h : ¬ passed = true) : exec .processEvents s = .next { s with
      result := some (.status ⟨s.phase, .none, [], 0⟩), emitted := none } :=
  exec_processEvents_of_poll (hpoll.trans (congrArg _ (if_neg h)))

/-- A write past its bound (R165). -/
theorem exec_processEvents_write_timeout (hp : s.phase = .writeInProgress) (h : s.killTime < s.now) :
    exec .processEvents s = .next { s with
      phase := .idle, txActive := false, rxArmed := false, emitted := some .abort
      result := some (.status ⟨.writeFailed, .timeout, [], 0⟩) } :=
  exec_processEvents_of_passed (pollExchange_of_writeInProgress hp) (killTimePassed_iff.2 h)

/-- A wait past its bound (R166). -/
theorem exec_processEvents_response_timeout (hp : s.phase = .waitingForReadStart) (h : s.killTime < s.now) :
    exec .processEvents s = .next { s with
      phase := .idle, txActive := false, rxArmed := false, emitted := some .abort
      result := some (.status ⟨.readFailed, .timeout, [], 0⟩) } :=
  exec_processEvents_of_passed (pollExchange_of_waitingForReadStart hp) (killTimePassed_iff.2 h)

/-- A read past either bound (R167). -/
theorem exec_processEvents_read_timeout (hp : s.phase = .readInProgress)
    (h : s.killTime < s.now ∨ s.lastRxTime + Config.params.interWordReadTimeoutUs < s.now) :
    exec .processEvents s = .next { s with
      phase := .idle, txActive := false, rxArmed := false, emitted := some .abort
      result := some (.status ⟨.readFailed, .timeout, [], 0⟩) } :=
  exec_processEvents_of_passed (pollExchange_of_readInProgress hp)
    (Bool.or_eq_true_iff.2 (h.imp killTimePassed_iff.2 wordGapPassed_iff.2))

/-- A completed write is reported and consumed (R163). -/
theorem exec_processEvents_writeComplete (hp : s.phase = .writeComplete) : exec .processEvents s = .next { s with
    phase := .idle, result := some (.status ⟨.writeComplete, .none, [], 0⟩), emitted := none } :=
  exec_processEvents_of_poll (pollExchange_of_writeComplete hp)

/-- A stored overflow is reported and consumed (R164). -/
theorem exec_processEvents_overflow (hp : s.phase = .readFailed) (hf : s.fail = .bufferOverflow) :
    exec .processEvents s = .next { s with
      phase := .idle, fail := .none
      result := some (.status ⟨.readFailed, .bufferOverflow, [], 0⟩), emitted := none } :=
  exec_processEvents_of_poll (pollExchange_of_overflow hp hf)

/-! ## The poll of a finished receive (R168) -/

/-- The verdict on the words decides which Status is returned, and that Status is the one the checks give in their
order. -/
theorem status_of_verdict (tc : BitVec 5) (tb : Word) (ws : List Word) :
    (if (verdict tc tb ws).1 = .readComplete then ⟨.readComplete, .none, ws, ws.length⟩
      else emptyStatus .readFailed (verdict tc tb ws).2) = receiveStatus tc tb ws := by
  cases ws with
  | nil => rfl
  | cons w ws =>
    simp only [verdict, receiveStatus, List.headD_cons, List.length_cons, Nat.succ_ne_zero, if_false]
    split_ifs <;> simp_all

/-- Under every configuration the poll of a finished receive returns to `IDLE` with the Status its checks give. -/
theorem runProcessEvents_of_words (hp : s.phase = .readComplete) (hcount : s.rxcount = ws.length)
    (hfit : ws.length ≤ cfg.rxCapacityWords) (hheld : ∀ k, k < ws.length → ws[k]? = some (s.word cfg .rxbuf k)) :
    runProcessEvents cfg s = .next { s with
      phase := .idle, emitted := none
      result := some (.status (receiveStatus s.rxtailCount s.rxtailBits ws)) } := by
  have hread : memReadRange cfg .rxbuf s.clearOutputs 0 s.clearOutputs.rxcount = .ok ws :=
    (congrArg _ hcount).trans (memReadRange_of_words hfit hheld)
  have hresolve := (pollExchange_of_readComplete (s := s.clearOutputs) hp).trans
    (resolveReceive_of_words hcount.symm hread)
  rw [State.clearOutputs_rxcount, hcount, status_of_verdict] at hresolve
  exact settle_eq_next.2 hresolve

/-- More words than declared are no failure: with a whole byte of tail, the check byte decides (R169). -/
theorem receiveStatus_of_oversized {tc : BitVec 5} (tb : Word) (hmore : declaredLength (ws.headD 0) + 1 < ws.length)
    (htc : tc = 8) : receiveStatus tc tb ws =
      if checkByte ws = byte0 tb then ⟨.readComplete, .none, ws, ws.length⟩
      else emptyStatus .readFailed .crcInvalid := by
  rw [receiveStatus, if_neg (by omega), if_neg (by omega), if_neg (not_not_intro htc), ite_not]

/-- A finished receive that fits is consumed whichever words it holds and whatever they are resolved to. -/
theorem exec_processEvents_readComplete (hp : s.phase = .readComplete)
    (hfit : s.rxcount ≤ Config.params.rxCapacityWords) :
    ∃ t, exec .processEvents s = .next t ∧ t.phase = .idle := by
  refine ⟨_, runProcessEvents_of_words (ws := (List.range s.rxcount).map (s.word Config.params .rxbuf)) hp (by simp)
    (by simpa using hfit) fun k hk => ?_, rfl⟩
  have hk' : k < s.rxcount := by simpa using hk
  simp [hk']

/-- A good state stores `READ_FAILED` for an overflow only (R38 item 2). -/
theorem Inv.fail_of_readFailed (hs : Inv cfg s) (hp : s.phase = .readFailed) : s.fail = .bufferOverflow := by
  simpa [hp] using hs.failStored

end PollOfAnExchange

/-! ## The statements -/

/-- Settles O37: the poll of `IDLE`. -/
theorem pollIdle : Obligations.PollIdle := fun _ hp => exec_processEvents_of_poll (pollExchange_of_idle hp)

/-- Settles O38: the three phases in progress, short of their bounds. -/
theorem pollInProgressWritesNothing : Obligations.PollInProgressWritesNothing := by
  intro s hp hkill hgap
  have hnot : ¬ killTimePassed s.clearOutputs = true := mt killTimePassed_iff.1 (Nat.not_lt.2 hkill)
  obtain hp | hp | hp := hp
  · exact exec_processEvents_of_not_passed (pollExchange_of_writeInProgress hp) hnot
  · exact exec_processEvents_of_not_passed (pollExchange_of_waitingForReadStart hp) hnot
  · have hnotGap : ¬ wordGapPassed Config.params s.clearOutputs = true :=
      mt wordGapPassed_iff.1 (Nat.not_lt.2 (hgap hp))
    exact exec_processEvents_of_not_passed (pollExchange_of_readInProgress hp) (by simp [hnot, hnotGap])

/-- Settles O39: the poll of `WRITE_COMPLETE`. -/
theorem pollWriteComplete : Obligations.PollWriteComplete := fun _ => exec_processEvents_writeComplete

/-- Settles O40: the poll of `READ_FAILED` with the one reason stored there. -/
theorem pollOverflow : Obligations.PollOverflow := fun _ => exec_processEvents_overflow

/-- Settles O41: the three phases in progress, past a bound. -/
theorem pollPastBoundTimesOut : Obligations.PollPastBoundTimesOut := fun _ =>
  ⟨exec_processEvents_write_timeout, exec_processEvents_response_timeout, exec_processEvents_read_timeout⟩

/-- Settles O42: the poll of a finished receive under the machine's own configuration. -/
theorem pollValidatesReceive : Obligations.PollValidatesReceive := fun _ _ => runProcessEvents_of_words

/-- Settles O43: of the checks on a finished receive only that of the check byte is left. -/
theorem oversizedReceiveAccepted : Obligations.OversizedReceiveAccepted := by
  refine ⟨fun _ => rfl, fun cfg s ws hp hcount hfit hheld hmore htc =>
    ⟨_, runProcessEvents_of_words hp hcount hfit hheld, rfl, ?_⟩⟩
  exact congrArg (some <| Result.status ·) (receiveStatus_of_oversized s.rxtailBits hmore htc)

/-- Settles O60: past the kill-time a phase in progress times out, a terminal phase is consumed at any time, and `IDLE`
stays. -/
theorem onePollAfterTheBoundEnds : Obligations.OnePollAfterTheBoundEnds := by
  intro s hs h
  cases hp : s.phase with
  | idle => exact ⟨_, pollIdle s hp, hp⟩
  | writeInProgress => exact ⟨_, exec_processEvents_write_timeout hp (by simpa [hp] using h), rfl⟩
  | waitingForReadStart => exact ⟨_, exec_processEvents_response_timeout hp (by simpa [hp] using h), rfl⟩
  | readInProgress => exact ⟨_, exec_processEvents_read_timeout hp (.inl (by simpa [hp] using h)), rfl⟩
  | writeComplete => exact ⟨_, exec_processEvents_writeComplete hp, rfl⟩
  | readFailed => exact ⟨_, exec_processEvents_overflow hp (hs.fail_of_readFailed hp), rfl⟩
  | readComplete => exact exec_processEvents_readComplete hp hs.rxcountFits
  | writeFailed => exact absurd hp hs.phaseStored

end Sys2Proof.Machine

/-! The phase transitions of R171 and the kill-time. The statements O55 and O58. -/

namespace Sys2Proof.Machine

section PhaseTransitions

variable {i : Instr} {s t : State} {q : Phase}

/-! ## Every change of the phase is a row of the table -/

/-- Each case of an operation leaves the phase or is a row of R171. A timeout is one of three rows, by the phase it
ends, and a consumed exchange one of two. -/
theorem phaseStep_of_exec (h : exec i s = .next t) : t.phase = s.phase ∨ PhaseStep Config.params s i t.phase := by
  cases exec_cases h with
  | returned | ignored | stored => exact .inl rfl
  | wrote p a o _ _ hidle hquiet => exact .inr (.write p a o hidle hquiet)
  | listened o hidle => exact .inr (.startRead o hidle)
  | timedOut _ hpassed =>
    obtain ⟨hp | hp, hkill⟩ | ⟨hp, hbound⟩ := hpassed
    · exact .inr (.writeTimeout hp hkill)
    · exact .inr (.responseTimeout hp hkill)
    · exact .inr (.readTimeout hp hbound)
  | consumed _ hp =>
    obtain hp | hp := hp
    · exact .inr (.writeConsumed hp)
    · exact .inr (.readConsumed hp)
  | overflowConsumed _ hp => exact .inr (.overflowConsumed hp)
  | sentThenListening hp hauto => exact .inr (.txDoneRead hp hauto)
  | sent hp hauto => exact .inr (.txDone hp hauto)
  | started hp => exact .inr (.rxStart hp)
  | overflowed w hp hfull => exact .inr (.overflow w hp hfull)
  | ended tc tb htc hp => exact .inr (.rxEnd tc tb hp htc)

/-! ## Every row of the table is taken -/

/-- `TX_DONE` in its phase goes on by `AUTOSTART` (R190). -/
theorem exec_txDone_of_sending (hp : s.phase = .writeInProgress) :
    exec .txDone s = .next (finishWrite s.clearOutputs) := if_pos hp

theorem finishWrite_phase (s : State) :
    (finishWrite s).phase = if s.autostart then .waitingForReadStart else .writeComplete := by
  unfold finishWrite
  cases s.autostart <;> rfl

/-- `RX_WORD` that finds the buffer full stores the overflow (R196). -/
theorem exec_rxWord_of_full {w : Word} (hp : s.phase = .readInProgress)
    (hfull : s.rxcount = Config.params.rxCapacityWords) :
    exec (.rxWord w) s = .next (storeOverflow s.clearOutputs) :=
  (if_pos hp).trans (settle_eq_next.2 (receiveWord_overflow (s := s.clearOutputs) hfull))

/-- `RX_END` in its phase ends the reception (R199). -/
theorem exec_rxEnd_of_reading {tc : Nat} (htc : tc ≤ 31) (tb : Word) (hp : s.phase = .readInProgress) :
    exec (.rxEnd tc tb) s = .next (finishReceive tc tb s.clearOutputs) :=
  (ifTyped_of_true (decide_eq_true htc) _ s).trans (if_pos hp)

/-- From a good state the operation of each row of R171 goes to the row's phase; the rows of `PROCESS_EVENTS` are its
timeouts and the phases it consumes. -/
theorem exec_of_phaseStep (hwf : i.WellFormed) (hs : Inv Config.params s) (h : PhaseStep Config.params s i q) :
    ∃ t, exec i s = .next t ∧ t.phase = q := by
  cases h with
  | write p a o hidle hquiet =>
    obtain ⟨m, hbegin, -⟩ := exec_write_begins a o (of_decide_eq_true hwf) hidle hquiet hs.txbufWf
    exact ⟨_, hbegin, rfl⟩
  | startRead o hidle => exact ⟨_, exec_startRead_begins o hidle, rfl⟩
  | txDone hp hauto => exact ⟨_, exec_txDone_of_sending hp, by simp [finishWrite_phase, hauto]⟩
  | txDoneRead hp hauto => exact ⟨_, exec_txDone_of_sending hp, by simp [finishWrite_phase, hauto]⟩
  | rxStart hp => exact ⟨startReceive Config.params s.clearOutputs, if_pos hp, rfl⟩
  | overflow w hp hfull => exact ⟨_, exec_rxWord_of_full hp hfull, rfl⟩
  | rxEnd tc tb hp htc => exact ⟨_, exec_rxEnd_of_reading htc tb hp, rfl⟩
  | writeTimeout hp hkill => exact ⟨_, exec_processEvents_write_timeout hp hkill, rfl⟩
  | responseTimeout hp hkill => exact ⟨_, exec_processEvents_response_timeout hp hkill, rfl⟩
  | readTimeout hp hbound => exact ⟨_, exec_processEvents_read_timeout hp hbound, rfl⟩
  | writeConsumed hp => exact ⟨_, exec_processEvents_writeComplete hp, rfl⟩
  | readConsumed hp => exact exec_processEvents_readComplete hp hs.rxcountFits
  | overflowConsumed hp => exact ⟨_, exec_processEvents_overflow hp (hs.fail_of_readFailed hp), rfl⟩

/-! ## The kill-time (R159) -/

/-- A new kill-time comes with a new phase and is the time of its step and a bound. -/
theorem exec_killTime_cases (h : exec i s = .next t) :
    t.killTime = s.killTime ∨ t.phase ≠ s.phase ∧ ∃ bound, t.killTime = s.now + bound := by
  cases exec_cases h with
  | wrote _ _ _ _ _ hidle => exact .inr ⟨by simp [hidle], _, rfl⟩
  | listened _ hidle => exact .inr ⟨by simp [hidle], _, rfl⟩
  | sentThenListening hp => exact .inr ⟨by simp [hp], _, rfl⟩
  | started hp => exact .inr ⟨by simp [hp], _, rfl⟩
  | _ => exact .inl rfl

end PhaseTransitions

/-! ## The statements -/

/-- Settles O55: the cases of an operation are rows, and the rows are cases. -/
theorem phaseTransitionsAsListed : Obligations.PhaseTransitionsAsListed :=
  ⟨fun _ _ _ => phaseStep_of_exec, fun _ _ _ => exec_of_phaseStep⟩

/-- Settles O58: a kill-time that is kept changes nothing, and a new one comes with a new phase. -/
theorem killTimeIsAbsolute : Obligations.KillTimeIsAbsolute := by
  intro i s t h
  obtain hsame | ⟨hphase, bound, hbound⟩ := exec_killTime_cases h
  · exact ⟨fun _ => hsame, fun hne => absurd hsame hne⟩
  · exact ⟨fun heq => absurd heq hphase, fun _ => hbound ▸ Nat.le_add_right s.now bound⟩

end Sys2Proof.Machine

/-! The events of the PHY, one by one, and the commands it is sent: what an event does in the phase that takes it, that
it does nothing in any other, and where each command comes from. The statements O46 to O50 and O59. -/

namespace Sys2Proof.Machine

section EventsAndCommands

variable {i : Instr} {s t : State}

/-! ## Events and the phases that take them (R202) -/

/-- An event in a phase that does not take it fails the phase test of its meaning; a typed `RX_END` passes its operand
check first. -/
theorem exec_of_not_taken {q : Phase} (hwf : i.WellFormed) (hq : takingPhase i = some q) (hp : s.phase ≠ q) :
    exec i s = .next { s with result := none, emitted := none } := by
  cases i with
  | txDone | rxStart | rxWord => cases hq; exact if_neg hp
  | rxEnd tc tb => cases hq; exact (ifTyped_of_true hwf _ s).trans (if_neg hp)
  | _ => cases hq

/-- Every event has a phase that takes it. -/
theorem exists_takingPhase_of_event (hi : i.port = .event) : ∃ q, takingPhase i = some q := by
  refine Option.ne_none_iff_exists'.1 fun hnone => ?_
  cases (takingPhase_eq_none_iff.1 hnone).symm.trans hi

/-- Where what the PHY is doing fits the phase, it delivers only legal events (R203 item 5). -/
theorem eventLegal_of_mayDeliver {op : Nat} (hfit : s.phy.activity.fits s.phase) (hm : s.phy.mayDeliver op i = true) :
    EventLegal i s := by
  obtain ⟨-, hdelivers⟩ := Bool.and_eq_true_iff.1 hm
  exact fun _ => PhyActivity.takingPhase_of_delivers hfit hdelivers

/-! ## The events in their phases -/

/-- `TX_DONE` with `AUTOSTART` arms the receiver; the response timeout counts from this step (R190, R191). -/
theorem exec_txDone_of_autostart (hp : s.phase = .writeInProgress) (ha : s.autostart = true) :
    exec .txDone s = .next { s with
      rxcount := 0
      rxtailCount := 0
      rxtailBits := 0
      killTime := s.now + s.readTimeout.toNat
      phase := .waitingForReadStart
      txActive := false
      rxArmed := true
      emitted := some .rxArm
      result := none } :=
  (exec_txDone_of_sending hp).trans (congrArg _ (if_pos ha))

/-- `TX_DONE` without `AUTOSTART` completes the write (R190). -/
theorem exec_txDone_of_no_autostart (hp : s.phase = .writeInProgress) (ha : s.autostart = false) :
    exec .txDone s = .next { s with
      phase := .writeComplete, txActive := false, result := none, emitted := none } :=
  (exec_txDone_of_sending hp).trans (congrArg _ (if_neg (ne_true_of_eq_false ha)))

/-- The bound on a whole read, written out (R156). -/
theorem maxReadUs_eq (cfg : Params) : maxReadUs cfg =
    ((cfg.rxCapacityWords * 32 + 8) * cfg.nsPerBit * (100 + cfg.writeTimeoutExtraPercent) + 100000 - 1) / 100000 := by
  rw [maxReadUs, boundUs, maxReadBits, ceilDiv]

/-- `RX_START` in its phase starts both clocks (R193). -/
theorem exec_rxStart_of_waiting (hp : s.phase = .waitingForReadStart) :
    exec .rxStart s = .next { s with
      lastRxTime := s.now
      killTime := s.now + maxReadUs Config.params
      phase := .readInProgress
      result := none
      emitted := none } := if_pos hp

/-! ## The commands (R206) -/

/-- `PHY_TX_START` comes with an accepted `WRITE`. -/
theorem exec_emits_txStart {image : List Word} (h : exec i s = .next t) (hc : t.emitted = some (.txStart image)) :
    (∃ p a o, i = .write p a o) ∧ t.txActive = true := by
  cases exec_cases h with
  | wrote p a o => exact ⟨⟨p, a, o, rfl⟩, rfl⟩
  | _ => cases hc

/-- `PHY_RX_ARM` comes with an accepted `START_READ`, or follows a transmit that asked for it. -/
theorem exec_emits_rxArm (h : exec i s = .next t) (hc : t.emitted = some .rxArm) :
    ((∃ o, i = .startRead o) ∨ i = .txDone ∧ s.autostart = true) ∧ t.rxArmed = true := by
  cases exec_cases h with
  | listened o => exact ⟨.inl ⟨o, rfl⟩, rfl⟩
  | sentThenListening _ ha => exact ⟨.inr ⟨rfl, ha⟩, rfl⟩
  | _ => cases hc

/-- `PHY_ABORT` comes with the two failures: a timeout that a poll finds, and a word without room (R229). -/
theorem exec_emits_abort (h : exec i s = .next t) (hc : t.emitted = some .abort) :
    t.txActive = false ∧ t.rxArmed = false ∧
      ((i = .processEvents ∧ ∃ q, t.result = some (.status ⟨q, .timeout, [], 0⟩)) ∨
        ∃ w, i = .rxWord w ∧ t.fail = .bufferOverflow) := by
  cases exec_cases h with
  | timedOut failed => exact ⟨rfl, rfl, .inl ⟨rfl, failed, rfl⟩⟩
  | overflowed w => exact ⟨rfl, rfl, .inr ⟨w, rfl, rfl⟩⟩
  | _ => cases hc

end EventsAndCommands

/-! ## The statements -/

/-- Settles O46: `TX_DONE` by its phase and `AUTOSTART`. -/
theorem txDoneOutcome : Obligations.TxDoneOutcome := fun _ =>
  ⟨exec_of_not_taken rfl rfl, exec_txDone_of_autostart, exec_txDone_of_no_autostart⟩

/-- Settles O47: `RX_START` by its phase, with the bound of R156. -/
theorem rxStartOutcome : Obligations.RxStartOutcome := by
  refine fun s => ⟨fun hp => ?ignored, fun hp => ?started⟩
  case ignored => exact exec_of_not_taken rfl rfl hp
  case started => rw [exec_rxStart_of_waiting hp, maxReadUs_eq]

/-- Settles O48: `RX_WORD` by its phase and its room; the word stored is read back by the read-after-write rule. -/
theorem rxWordOutcome : Obligations.RxWordOutcome := fun w s =>
  ⟨exec_of_not_taken rfl rfl, exec_rxWord_of_full,
    fun hp hroom hwf => ⟨_, exec_rxWord_of_room hp hroom, Memory.wf_write _ w hwf,
      fun k => Memory.read_write hwf s.rxcount k w⟩⟩

/-- Settles O49: `RX_END` by its operand and its phase; a tail count inside its type is stored whole. -/
theorem rxEndOutcome : Obligations.RxEndOutcome := by
  refine fun tc tb s => ⟨fun htc => ?refused, fun htc hp => ?ignored, fun htc hp => ?stored⟩
  case refused => exact exec_of_not_wellFormed fun hwf => Nat.not_le_of_lt htc (of_decide_eq_true hwf)
  case ignored => exact exec_of_not_taken (decide_eq_true htc) rfl hp
  case stored =>
    have hcount : (BitVec.ofNat 5 tc).toNat = tc := by rw [BitVec.toNat_ofNat, Nat.mod_eq_of_lt (by omega)]
    exact ⟨_, hcount, exec_rxEnd_of_reading htc tb hp⟩

/-- Settles O50: an event meets the phase test of its meaning, and the fit of PHY and phase says what may come. -/
theorem eventsIgnoredOutsideTheirPhase : Obligations.EventsIgnoredOutsideTheirPhase := by
  refine ⟨fun i s hwf hi hp => ?ignored, fun _ _ _ => eventLegal_of_mayDeliver⟩
  case ignored =>
    obtain ⟨q, hq⟩ := exists_takingPhase_of_event hi
    exact exec_of_not_taken hwf hq fun h => hp (h ▸ hq)

/-- Settles O59: each command on its own. -/
theorem commandsAsListed : Obligations.CommandsAsListed := by
  intro i s t c h hc
  cases c with
  | txStart => exact exec_emits_txStart h hc
  | rxArm => exact exec_emits_rxArm h hc
  | abort => exact exec_emits_abort h hc

end Sys2Proof.Machine

/-! What holds after any number of steps: time goes on, and a PHY operation that is finished stays finished and delivers
nothing. The statements O6 and O12. -/

namespace Sys2Proof.Machine

section Runs

variable {s t : State} {op : Nat}

/-- What every step of a machine keeps holds after any number of its steps. -/
theorem holds_after_run {M : Host.Core} {P : M.State → Prop} (hstep : ∀ {u v}, P u → M.step u = .next v → P v)
    {k : Nat} {u v : M.State} (hu : P u) (h : M.run k u = .next v) : P v := by
  induction k generalizing u with
  | zero => cases h; exact hu
  | succ k ih =>
    unfold Host.Core.run at h
    split at h
    case h_1 w hw => exact ih (hstep hu hw) h
    case h_2 => cases h
    case h_3 => cases h

/-! ## Time (R201) -/

/-- The time source's move alone changes the time input, and the release of reset keeps it (log entry 4). -/
theorem now_le_of_step (h : step s = .next t) : s.now ≤ t.now := by
  obtain ⟨-, rfl⟩ | ⟨m, rest, -, hmove⟩ := step_cases h
  · exact le_rfl
  obtain ⟨i, low, u, -, hu, rfl⟩ | ⟨i, u, -, -, -, hu, rfl⟩ | ⟨r, e, low, rfl⟩ | ⟨us, rfl⟩ | rfl := hmove
  · obtain ⟨-, -, -, hnow, -⟩ := exec_frame hu
    exact hnow.ge
  · obtain ⟨-, -, -, hnow, -⟩ := exec_frame hu
    exact hnow.ge
  · exact le_rfl
  · exact Nat.le_add_right ..
  · exact le_rfl

/-! ## Finished operations of the PHY (R203, R207) -/

/-- With the PHY idle, the operation last begun is finished. -/
theorem Phy.finished_of_idle {p : Phy} (h : p.activity = .idle) : p.finished p.operation := .inr ⟨rfl, h⟩

/-- The PHY seeing a step of the block keeps a finished operation finished, where the event it delivered in the step is
one it may deliver. -/
theorem finished_of_exec {i : Instr} {e : Option Instr} (hs : s.phy.finished op)
    (he : ∀ j, e = some j → s.phy.activity.delivers j = true) (h : exec i s = .next t) :
    (t.phyFollows e).phy.finished op := by
  obtain ⟨hphy, -⟩ := exec_frame h
  rw [State.phyFollows_phy, hphy]
  exact Phy.finished_after hs he _

/-- Every step keeps a finished operation finished: only an operation or event, or the release of reset, reaches the
PHY. -/
theorem finished_of_step (hs : s.phy.finished op) (h : step s = .next t) : t.phy.finished op := by
  obtain ⟨-, rfl⟩ | ⟨m, rest, -, hmove⟩ := step_cases h
  · exact hs
  obtain ⟨i, low, u, -, hu, rfl⟩ | ⟨i, u, -, -, hd, hu, rfl⟩ | ⟨r, e, low, rfl⟩ | ⟨us, rfl⟩ | rfl := hmove
  · exact finished_of_exec (s := { s with schedule := rest, lineLow := low }) hs (by simp) hu
  · exact finished_of_exec (s := { s with schedule := rest }) hs (fun j hj => Option.some.inj hj ▸ hd) hu
  · exact hs
  · exact hs
  · exact hs.imp_right fun ⟨hop, _⟩ => ⟨hop, rfl⟩

/-- An event of a finished operation does not reach the block, whether or not reset is asserted (R239, R250). -/
theorem step_of_event_of_finished {d : Descriptor} {i : Instr} {rest : List Move} (hs : s.phy.finished op)
    (hm : s.schedule = .event op d :: rest) (hd : decode .event d = .ok i) :
    step s = .next { s with schedule := rest, result := none, emitted := none } := by
  obtain hr | hr := Bool.eq_false_or_eq_true s.resetAsserted
  · exact step_of_event_in_reset hm hr
  · rw [step_of_event_of_running hm hr]
    exact takeEvent_of_not_mayDeliver (s := { s with schedule := rest }) hd (Phy.not_mayDeliver_of_finished hs i)

/-- A step that sends `PHY_ABORT` leaves the PHY idle: the command is that of the step's operation or event, and the
PHY sees it (R206). -/
theorem phy_idle_of_step_abort (hm : s.schedule ≠ []) (h : step s = .next t) (hc : t.emitted = some .abort) :
    t.phy.activity = .idle := by
  have aborted {u : State} {e : Option Instr} (hu : u.emitted = some .abort) :
      (u.phyFollows e).phy.activity = .idle := by
    rw [State.phyFollows_phy, hu, Phy.after_abort]
  obtain ⟨hnil, -⟩ | ⟨m, rest, -, hmove⟩ := step_cases h
  · exact absurd hnil hm
  obtain ⟨i, low, u, -, -, rfl⟩ | ⟨i, u, -, -, -, -, rfl⟩ | ⟨r, e, low, rfl⟩ | ⟨us, rfl⟩ | rfl := hmove
  · exact aborted hc
  · exact aborted hc
  · cases hc
  · cases hc
  · cases hc

/-- The release of reset drops the PHY's operation (R250). -/
theorem finished_of_resetRelease {rest : List Move} (hr : s.resetAsserted = true)
    (hm : s.schedule = .resetRelease :: rest) (h : step s = .next t) : t.phy.finished s.phy.operation := by
  cases (step_of_resetRelease_in_reset hm hr).symm.trans h
  exact Phy.finished_of_idle rfl

end Runs

/-! ## The statements -/

/-- Settles O12: the time does not go back in a step, so it does not in a run. -/
theorem timeNeverGoesBack : Obligations.TimeNeverGoesBack := fun _ s _ =>
  holds_after_run (M := core) (P := fun u : State => s.now ≤ u.now) (fun hu h => hu.trans (now_le_of_step h)) le_rfl

/-- Settles O6: a finished operation stays finished over a run and then delivers nothing; an abort and the release of
reset leave the PHY idle. -/
theorem finishedPhyOperationDeliversNothing : Obligations.FinishedPhyOperationDeliversNothing :=
  ⟨fun _ op _ _ _ _ _ hs h => step_of_event_of_finished
      (holds_after_run (M := core) (P := fun u : State => u.phy.finished op) finished_of_step hs h),
    fun _ _ hm h hc => Phy.finished_of_idle (phy_idle_of_step_abort hm h hc),
    fun _ _ _ => finished_of_resetRelease⟩

end Sys2Proof.Machine
